-- ==== Sys2Proof/Word.lean ====
section
/-!
DEFINITION. The word types of the block: every value is an unsigned value of at most 8 bits
(00_scope.md R8, R9).
-/

namespace Sys2Proof

/-- An 8-bit value: a table entry (20_memory.md R31) or the value of `st` (10_state.md R14). -/
abbrev Byte := BitVec 8

/-- The 2-bit code `{level_b, level_a}` (30_encoding.md R50). -/
abbrev Code := BitVec 2

/-- The 4-bit input vector `{rst, eval, level_b, level_a}` of one step (30_encoding.md R47). -/
abbrev InputVector := BitVec 4

end Sys2Proof
end

