-- ==== Sys2Proof/Syntax.lean ====
section
/-!
DEFINITION. The operations of the block (spec/opcode_table.json; 40_fsm_operations.md R66 to R68)
and the assembler statements that stand for them (30_encoding.md R59, R60).
-/

namespace Sys2Proof

/-- One operation of the block, one constructor per row of the opcode table. The bits of the input
vector that an operation ignores are no operands (30_encoding.md R48, R55). -/
inductive Instr where
  /-- RESET, D00's `new()` (R66). -/
  | reset
  /-- EVAL, D00's `evaluate(levelA, levelB)` (R67); the A level comes first, as in `EVAL a, b` (R59). -/
  | eval (levelA levelB : Bool)
  /-- IDLE, a step with no request (R68). -/
  | idle
deriving DecidableEq, Repr

/-- The mnemonic of an operation, as the opcode table spells it. -/
def Instr.mnemonic : Instr → String
  | .reset => "RESET"
  | .eval _ _ => "EVAL"
  | .idle => "IDLE"

/-- One assembler statement as written: its operands are numerals, which `Stmt.wellFormed` bounds
(30_encoding.md R59, R60). -/
inductive Stmt where
  /-- `RESET` -/
  | reset
  /-- `IDLE` -/
  | idle
  /-- `EVAL a, b`, with `a`, `b` in 0..1 -/
  | evalLevels (a b : Nat)
  /-- `EVAL #c`, with `c` in 0..3 -/
  | evalCode (c : Nat)
  /-- `IDLE n`: `n` copies of `IDLE` -/
  | idles (n : Nat)
  /-- `DETENT_NEG` -/
  | detentNeg
  /-- `DETENT_POS` -/
  | detentPos
deriving DecidableEq, Repr

/-- A program as written: one statement a line (R59). -/
abbrev Program := List Stmt

end Sys2Proof
end

