-- ==== Sys2Proof/WellFormed.lean ====
section
/-!
DEFINITION. The operand bounds of assembler statements (30_encoding.md R59). An `Instr` has no
ill-formed value: its operands are two line levels, and every pair of levels is legal (R55).
-/

namespace Sys2Proof

/-- `EVAL a, b` needs `a`, `b` in 0..1 and `EVAL #c` needs `c` in 0..3 (R59). The other statements
have no bounded operand. -/
def Stmt.wellFormed : Stmt → Bool
  | .reset => true
  | .idle => true
  | .evalLevels a b => decide (a < 2) && decide (b < 2)
  | .evalCode c => decide (c < 4)
  | .idles _ => true
  | .detentNeg => true
  | .detentPos => true

/-- Every statement of the program is well formed. -/
def Program.wellFormed (p : Program) : Bool := p.all Stmt.wellFormed

/-- Every operation is well formed: "No input vector is illegal" and "No code is illegal either"
(R55). -/
def Instr.wellFormed : Instr → Bool
  | .reset => true
  | .eval _ _ => true
  | .idle => true

end Sys2Proof
end

