-- ==== Sys2Proof/Decode.lean ====
section
/-!
DEFINITION. Decoding of the input vector (30_encoding.md R47, R48, R61), decoding of bytes that
carry vectors, rejecting by name, and the encoder with the canonical vectors (R49).
-/

namespace Sys2Proof

/-- `in[3]`, the reset request (R47). -/
def rstBit (v : InputVector) : Bool := v.getLsbD 3
/-- `in[2]`, the evaluation request (R47). -/
def evalBit (v : InputVector) : Bool := v.getLsbD 2
/-- `in[1]`, the level of line B (R47). -/
def levelBBit (v : InputVector) : Bool := v.getLsbD 1
/-- `in[0]`, the level of line A (R47). -/
def levelABit (v : InputVector) : Bool := v.getLsbD 0

/-- The vector `{rst, eval, level_b, level_a}`, the first in the most significant place (R9, R47). -/
def inputVector (rst eval levelB levelA : Bool) : InputVector :=
  BitVec.ofBool rst ++ BitVec.ofBool eval ++ BitVec.ofBool levelB ++ BitVec.ofBool levelA

/-- The operation a vector selects: RESET before EVAL before IDLE (R48). Total, since every one of
the 16 vectors decodes (R55). -/
def decodeVector (v : InputVector) : Instr :=
  if rstBit v then .reset
  else if evalBit v then .eval (levelABit v) (levelBBit v)
  else .idle

/-- The canonical vector of an operation (R49). -/
def encode : Instr → InputVector
  | .reset => 0x8
  | .eval levelA levelB => inputVector false true levelB levelA
  | .idle => 0x0

/-- The canonical vector that stands for a vector: the same operation, ignored bits cleared (R49). -/
def canonicalVector (v : InputVector) : InputVector := encode (decodeVector v)

/-- One row of the operation map as a (match, mask) pair over 4 bits (R61). -/
structure OpcodeRow where
  mnemonic : String
  value : InputVector
  mask : InputVector
deriving DecidableEq, Repr

/-- The operation map of R61 and opcode_table.json. -/
def opcodeRows : List OpcodeRow :=
  [⟨"RESET", 0b1000, 0b1000⟩, ⟨"EVAL", 0b0100, 0b1100⟩, ⟨"IDLE", 0b0000, 0b1100⟩]

/-- A vector lies in a row when its masked bits are the row's. -/
def OpcodeRow.covers (r : OpcodeRow) (v : InputVector) : Bool := v &&& r.mask == r.value

/-- The mnemonics of the rows that cover a vector. -/
def mnemonicsOf (v : InputVector) : List String :=
  (opcodeRows.filter (·.covers v)).map OpcodeRow.mnemonic

/-- Why bytes do not decode. -/
inductive DecodeError where
  /-- There is no byte left to read. -/
  | noInput
  /-- The byte's high nibble is not zero: the one format is a 4-bit vector (R56). -/
  | notAVector (b : Byte)
deriving DecidableEq, Repr

/-- The operation in a byte that carries one vector in its low nibble (log 9). -/
def decodeByte (b : Byte) : Except DecodeError Instr :=
  if b.extractLsb' 4 4 = 0 then .ok (decodeVector (b.extractLsb' 0 4)) else .error (.notAVector b)

/-- The first operation of a list of bytes, with the bytes after it. -/
def decodeBytes : List Byte → Except DecodeError (Instr × List Byte)
  | [] => .error .noInput
  | b :: rest =>
    match decodeByte b with
    | .ok i => .ok (i, rest)
    | .error e => .error e

/-- All the operations of a list of bytes, one vector a byte, or the first rejection. -/
def decodeProgram : List Byte → Except DecodeError (List Instr)
  | [] => .ok []
  | b :: rest =>
    match decodeByte b with
    | .error e => .error e
    | .ok i =>
      match decodeProgram rest with
      | .error e => .error e
      | .ok is => .ok (i :: is)

/-- The byte that carries a vector: the vector in the low nibble, zeros above (log 9). -/
def vectorByte (v : InputVector) : Byte := 0#4 ++ v

/-- The byte that carries an operation's canonical vector. -/
def encodeByte (i : Instr) : Byte := vectorByte (encode i)

/-- The operation the decoder reads from a table word: the word's low `nbits` bits, in whole bytes as
`nbits` has them, laid out as bytes with the first at the lowest place (log 9). The instruction is one
byte, so every bit above bit 7 must be 0. -/
def decodeTableWord (nbits w : Nat) : Option Instr :=
  if w % 2 ^ nbits < 256 then
    match decodeBytes [BitVec.ofNat 8 (w % 2 ^ nbits)] with
    | .ok (i, _) => some i
    | .error _ => none
  else none

end Sys2Proof
end

