-- ==== Sys2Proof/Config.lean ====
section
/-!
DEFINITION. The open parameters of the block (00_scope.md R8) and the free values: constants with no
body, of which nothing can be proved (93_implementation_defined.md Part 1).
-/

namespace Sys2Proof

/-- A physical sense of rotation. -/
inductive RotationSense where
  | clockwise
  | anticlockwise
deriving DecidableEq, Repr, Inhabited

/-- One of the two encoder lines (00_scope.md R11). -/
inductive LineName where
  | lineA
  | lineB
deriving DecidableEq, Repr

/-- `WIRING` of decoder `unit`: the physical sense that gives the code order 0→1→3→2 (R8,
42_direction_extract.md R101, D21; log 11). One value per decoder is the model's choice (log 20). -/
opaque Config.wiring (unit : Nat) : RotationSense

/-! The free values below are drawn by decoder and clock edge. Instances are independent (R8,
60_exceptions.md R116), so each decoder has draws of its own. That two runs of one decoder from one state get
equal draws at equal edges is the model's choice (DESIGN CHOICE, unsafe: log 20). -/

/-- The vector the environment drives to decoder `unit` at clock edge `edge` when State lists none (log 1;
drawn as log 20 says). -/
opaque Config.hostVector (unit edge : Nat) : InputVector

/-- The level decoder `unit` reads at clock edge `edge` from a line that changes at that edge
(70_reset_and_hazards.md R129, B9; log 6; drawn as log 20 says). -/
opaque Config.unsettledLevel (unit edge : Nat) (line : LineName) : Bool

/-- `evq` of decoder `unit` at power-on, before the first RESET (70_reset_and_hazards.md R124; log 3; drawn as
log 20 says). -/
opaque Config.powerOnEvq (unit : Nat) : Bool

/-- The port `ev_valid` of decoder `unit` before the first RESET, after clock edge `edge` (R124, B2; log 4;
drawn as log 20 says). -/
opaque Config.unresetEvValid (unit edge : Nat) : Bool

/-- The port `ev_dir` of decoder `unit` before the first RESET, after clock edge `edge` (R124, B2; log 4;
drawn as log 20 says). -/
opaque Config.unresetEvDir (unit edge : Nat) : BitVec 2

/-- The port `st_q` of decoder `unit` before the first RESET, after clock edge `edge` (R124, B2; log 4; drawn
as log 20 says). -/
opaque Config.unresetStQ (unit edge : Nat) : Byte

end Sys2Proof
end

