-- ==== Sys2Proof/Machine/State.lean ====
section
/-!
DEFINITION. The state of one decoder (10_state.md R13, R29), the model faults
(60_exceptions.md R103), and the state at reset and at power-on.
-/

namespace Sys2Proof.Machine

/-- A direction event (00_scope.md R11): "one of {Positive, Negative, None}". -/
inductive DirectionEvent where
  | negative
  | positive
  | none
deriving DecidableEq, Repr

/-- The state register `st`. "A model holds it as *undefined*" before the first RESET (10_state.md R29,
40_fsm_operations.md R65); after it, and so at reset, it holds 8 bits (R14). -/
inductive EncoderState where
  | undefined
  | holds (v : Byte)
deriving DecidableEq, Repr

/-- What a line does at a clock edge: it is driven to a level, or it changes at that very edge
(70_reset_and_hazards.md R129). -/
inductive LineLevel where
  | low
  | high
  | changing
deriving DecidableEq, Repr

/-- What the environment drives on the four input ports at one clock edge (30_encoding.md R47). -/
structure PortDrive where
  rst : Bool
  eval : Bool
  levelB : LineLevel
  levelA : LineLevel
deriving DecidableEq, Repr

/-- The state of one decoder and of the model around it. `st` and `evq` are the whole architectural
state (10_state.md R13). `inputs`, `edge` and `unit` are the model's own (log 1, log 2, log 20). -/
structure State where
  /-- The state register (R14). -/
  st : EncoderState
  /-- The event-valid register: the step just completed was an EVAL (R22). -/
  evq : Bool
  /-- What the environment drives at the next clock edges, oldest first. -/
  inputs : List PortDrive
  /-- The index of the next clock edge (30_encoding.md R58); it only selects free values. -/
  edge : Nat
  /-- Which decoder this is. No operation reads it: "Instances have no identifiers visible to themselves"
  (60_exceptions.md R116). It only selects free values (log 20). -/
  unit : Nat
deriving DecidableEq, Repr

/-- The model faults (60_exceptions.md R103), with the value R103 says each records. The hardware raises
none: each marks a start state that no run from reset reaches. All are safe: the model stops. -/
inductive Fault where
  /-- EVAL, when `st` is undefined: no RESET has been performed; records the code. Safe. -/
  | noReset (code : Code)
  /-- EVAL, when `st[3:0] > 6`; records `st` and the code. Safe. -/
  | badPhase (st : Byte) (code : Code)
  /-- EVAL, when the entry read has direction bits 0x30; records the entry and the code. Safe. -/
  | badFlags (entry : Byte) (code : Code)
deriving DecidableEq, Repr

/-- Reasons to refuse an instruction. No instruction of this model is refused. -/
inductive Refusal where
  /-- exec, for an instruction with no meaning yet. Safe: no claim can rest on it. -/
  | notModelled (mnemonic : String)
deriving DecidableEq, Repr

/-- The block right after reset: `st` = 0x00 (R20) and `evq` = 0 (R22, R29). `inputs` empty, `edge`
0 and `unit` 0 are DESIGN CHOICEs (log 1, log 2, log 20). -/
def State.reset : State :=
  { st := .holds 0x00, evq := false, inputs := [], edge := 0, unit := 0 }

/-- Decoder `unit` at power-on, before the first RESET: `st` undefined, `evq` unspecified
(70_reset_and_hazards.md R124; log 3). -/
def State.powerOn (unit : Nat) : State :=
  { st := .undefined, evq := Config.powerOnEvq unit, inputs := [], edge := 0, unit := unit }

end Sys2Proof.Machine
end

