-- ==== Sys2Proof/Machine/Flags.lean ====
section
/-!
DEFINITION. The direction flag: extraction from a table entry (42_direction_extract.md R88, R89) and
the field `st[5:4]` (10_state.md R14, R16). The block has no other flag (R25).
-/

namespace Sys2Proof.Machine

/-- `DIR_MASK` (00_scope.md R8). -/
def dirMask : Byte := 0x30
/-- `DIR_NEG` (R8). -/
def dirNeg : Byte := 0x10
/-- `DIR_POS` (R8). -/
def dirPos : Byte := 0x20

/-- `direction_bits = next & 0x30` (42_direction_extract.md R88). -/
def directionBits (next : Byte) : Byte := next &&& dirMask

/-- The event of the direction bits: `(d == 0x10) ? Negative : (d == 0x20) ? Positive : None`
(40_fsm_operations.md R67). -/
def directionOf (d : Byte) : DirectionEvent :=
  if d = dirNeg then .negative else if d = dirPos then .positive else .none

/-- The field DIR, `st[5:4]` (10_state.md R14). -/
def dirField (v : Byte) : BitVec 2 := v.extractLsb' 4 2

/-- The two bits of an event in DIR and on `ev_dir` (R14, 30_encoding.md R57). -/
def dirBitsOf : DirectionEvent → BitVec 2
  | .none => 0b00
  | .negative => 0b01
  | .positive => 0b10

/-- The event two direction bits stand for, none for the bits no entry has (R14, R54). -/
def eventOfDir (d : BitVec 2) : Option DirectionEvent :=
  if d = 0b00 then some .none
  else if d = 0b01 then some .negative
  else if d = 0b10 then some .positive
  else none

/-- The sense of rotation an event reports under a wiring: Positive is the code order 0→1→3→2, which the
wiring gives a sense, and Negative is the other order (42_direction_extract.md R91, R101). -/
def physicalSense (wiring : RotationSense) : DirectionEvent → Option RotationSense
  | .none => none
  | .positive => some wiring
  | .negative => some (match wiring with | .clockwise => .anticlockwise | .anticlockwise => .clockwise)

/-- The sense of rotation an event of decoder `unit` reports, on that decoder's wiring (log 11, log 20). -/
def rotationOf (unit : Nat) (e : DirectionEvent) : Option RotationSense :=
  physicalSense (Config.wiring unit) e

end Sys2Proof.Machine
end

