-- ==== Sys2Proof/Machine/Operands.lean ====
section
/-!
DEFINITION. The operands of EVAL: the code from the two levels (30_encoding.md R50), the phase from
`st` (10_state.md R15), and how two codes relate (R52).
-/

namespace Sys2Proof.Machine

/-- `code = (levelB << 1) | levelA` (R50), a boolean being the bit with true = 1 (00_scope.md R9). -/
def codeOf (levelA levelB : Bool) : Code :=
  ((BitVec.ofBool levelB).setWidth 2 <<< 1) ||| (BitVec.ofBool levelA).setWidth 2

/-- `code[0]`, the level of line A. -/
def codeLevelA (c : Code) : Bool := c.getLsbD 0
/-- `code[1]`, the level of line B. -/
def codeLevelB (c : Code) : Bool := c.getLsbD 1

/-- `PHASE_MASK` (00_scope.md R8). -/
def phaseMask : Byte := 0x0F

/-- The row of the next lookup, `st & 0xF`, as the 4-bit field `st[3:0]` (10_state.md R15). -/
def phaseOf (v : Byte) : BitVec 4 := (v &&& phaseMask).setWidth 4

/-- Two codes are adjacent when they differ in exactly one bit (R52). -/
def adjacent (c d : Code) : Bool := (c ^^^ d == 1) || (c ^^^ d == 2)

/-- Two codes are opposite when they differ in both bits (R52). -/
def opposite (c d : Code) : Bool := c ^^^ d == 3

end Sys2Proof.Machine
end

