-- ==== Sys2Proof/Machine/Table.lean ====
section
/-!
DEFINITION. The block's one address space, the read-only transition table (20_memory.md R30 to R34),
and its contents (41_transition_lookup.md R75).
-/

namespace Sys2Proof.Machine

/-- A read-only memory: (address, byte) pairs. An address that is not listed is not populated and has
no value (20_memory.md R34, R35; log 17). -/
abbrev Memory := List Host.Cell

/-- The canonical form: addresses strictly rising. A listed cell always differs from an unlisted one,
which has no value. -/
def Memory.wf : Memory → Bool
  | [] => true
  | [_] => true
  | (a, _) :: (b, y) :: m => decide (a < b) && Memory.wf ((b, y) :: m)

/-- The byte at an address, or none where no cell is populated. -/
def Memory.read : Memory → Nat → Option Byte
  | [], _ => none
  | (k, b) :: m, a => if k = a then some b else Memory.read m a

/-- D00's literal table, row `r` for phase `r`, value `c` for code `c` (41_transition_lookup.md R75). -/
def transitionRows : List (List Byte) :=
  [[0x00, 0x02, 0x04, 0x00],
   [0x03, 0x00, 0x01, 0x10],
   [0x03, 0x02, 0x00, 0x00],
   [0x03, 0x02, 0x01, 0x00],
   [0x06, 0x00, 0x04, 0x00],
   [0x06, 0x05, 0x00, 0x20],
   [0x06, 0x05, 0x04, 0x00]]

/-- Bytes at consecutive addresses. -/
def cellsFrom : Nat → List Byte → Memory
  | _, [] => []
  | a, b :: bs => (a, b) :: cellsFrom (a + 1) bs

/-- The transition table as memory: rows one after another, four entries a row (20_memory.md R34). -/
def transitionRom : Memory := cellsFrom 0 transitionRows.flatten

/-- `addr = 4*row + col` (20_memory.md R34). -/
def linearAddress (row : BitVec 4) (col : Code) : Nat := 4 * row.toNat + col.toNat

/-- `TableRead(row, col)` (20_memory.md R33); none where the row is not populated (R35). -/
def tableRead (rom : Memory) (row : BitVec 4) (col : Code) : Option Byte :=
  rom.read (linearAddress row col)

/-- `MemRead(addr, 1)` at a 5-bit linear address: `TableRead(addr[4:2], addr[1:0])` (20_memory.md R34). -/
def memRead (rom : Memory) (addr : BitVec 5) : Option Byte :=
  tableRead rom ((addr.extractLsb' 2 3).setWidth 4) (addr.extractLsb' 0 2)

end Sys2Proof.Machine
end

