-- ==== Sys2Proof/Machine/Ops.lean ====
section
/-!
DEFINITION. The shared operations: sampling the input ports (30_encoding.md R47), the evaluation
EVAL performs (40_fsm_operations.md R67), raising a model fault, and the output ports (R57).
-/

namespace Sys2Proof.Machine

/-! ### The input ports -/

/-- A line driven to a level. -/
def LineLevel.ofBool (b : Bool) : LineLevel := if b then .high else .low

/-- The level decoder `unit` samples from a line at an edge: "A level that changes at the sampling edge may be seen as
either value" (70_reset_and_hazards.md R129; log 6, log 20). -/
def LineLevel.sample (unit edge : Nat) (line : LineName) : LineLevel → Bool
  | .low => false
  | .high => true
  | .changing => Config.unsettledLevel unit edge line

/-- All four bits sampled together at one edge (R47). -/
def PortDrive.sample (unit edge : Nat) (d : PortDrive) : InputVector :=
  inputVector d.rst d.eval (d.levelB.sample unit edge .lineB) (d.levelA.sample unit edge .lineA)

/-- The ports driven to the bits of a vector. -/
def PortDrive.ofVector (v : InputVector) : PortDrive :=
  { rst := rstBit v, eval := evalBit v,
    levelB := .ofBool (levelBBit v), levelA := .ofBool (levelABit v) }

/-- The ports when requesters ask for evaluations in one step: their requests are ORed into the one
`eval` input (20_memory.md R41). -/
def PortDrive.fromRequesters (rst : Bool) (requests : List Bool) (levelB levelA : LineLevel) : PortDrive :=
  { rst := rst, eval := requests.any id, levelB := levelB, levelA := levelA }

/-- The vector the block samples at this edge: what the list says is driven, else any vector (log 1,
log 20). -/
def State.sampled (s : State) : InputVector :=
  match s.inputs with
  | [] => Config.hostVector s.unit s.edge
  | d :: _ => d.sample s.unit s.edge

/-- The model's own part of a clock edge: the sampled item is used up, the edge is counted. -/
def State.afterSample (s : State) : State :=
  { s with inputs := s.inputs.tail, edge := s.edge + 1 }

/-- The environment drives these ports at the next edge. -/
def State.presentDrive (s : State) (d : PortDrive) : State :=
  { s with inputs := d :: s.inputs }

/-- The environment drives this vector at the next edge. -/
def State.present (s : State) (v : InputVector) : State :=
  s.presentDrive (.ofVector v)

/-! ### Evaluation -/

/-- What an evaluation gives: the new `st` and the event (R67). -/
structure Evaluation where
  next : Byte
  dir : DirectionEvent
deriving DecidableEq, Repr

/-- EVAL's pseudocode up to its writes (40_fsm_operations.md R67), on any table: the tests of the model
faults in their order (60_exceptions.md R105), the lookup and the direction. A row with no cell is the
condition of BadPhase (20_memory.md R35; log 15). -/
def evaluate (rom : Memory) (st : EncoderState) (levelA levelB : Bool) : Except Fault Evaluation :=
  match st with
  | .undefined => .error (.noReset (codeOf levelA levelB))
  | .holds v =>
    if phaseOf v > 6 then .error (.badPhase v (codeOf levelA levelB))
    else
      match tableRead rom (phaseOf v) (codeOf levelA levelB) with
      | none => .error (.badPhase v (codeOf levelA levelB))
      | some next =>
        if directionBits next = 0x30 then .error (.badFlags next (codeOf levelA levelB))
        else .ok { next := next, dir := directionOf (directionBits next) }

/-- `raise Fault(reason)` (00_scope.md R10): nothing is written, nothing is emitted. The spec has no
other exception (60_exceptions.md R102, R109). -/
def raiseFault (f : Fault) : Host.Outcome State Fault Refusal := .fault f

/-- The number of a model fault (60_exceptions.md R103). -/
def Fault.number : Fault → Nat
  | .noReset _ => 1
  | .badPhase _ _ => 2
  | .badFlags _ _ => 3

/-- `st <- v` and `evq <- e` in one step (00_scope.md R10; 20_memory.md R39). -/
def State.write (s : State) (v : Byte) (e : Bool) : State := { s with st := .holds v, evq := e }

/-- `evq <- e`, `st` as it is. -/
def State.setEvq (s : State) (e : Bool) : State := { s with evq := e }

/-- EVAL on any table (a test may substitute one, 95_test_vectors.md 2.5). -/
def evalOn (rom : Memory) (levelA levelB : Bool) (s : State) : Host.Outcome State Fault Refusal :=
  match evaluate rom s.st levelA levelB with
  | .error f => raiseFault f
  | .ok r => .next (s.write r.next true)

/-! ### The output ports -/

/-- The three output ports (30_encoding.md R57). -/
structure Ports where
  evValid : Bool
  evDir : BitVec 2
  stQ : Byte
deriving DecidableEq, Repr

/-- The ports between this edge and the next (R57, R58). Before the first RESET each is any value
(70_reset_and_hazards.md R124; log 4, log 20). -/
def State.ports (s : State) : Ports :=
  match s.st with
  | .undefined =>
    { evValid := Config.unresetEvValid s.unit s.edge,
      evDir := Config.unresetEvDir s.unit s.edge,
      stQ := Config.unresetStQ s.unit s.edge }
  | .holds v =>
    { evValid := s.evq, evDir := if s.evq then dirField v else 0b00, stQ := v }

end Sys2Proof.Machine
end

