-- ==== Sys2Proof/Machine/Fsm.lean ====
section
/-!
DEFINITION. The meanings of RESET, EVAL and IDLE (40_fsm_operations.md R66 to R68), and the event each
hands to the consumer.
-/

namespace Sys2Proof.Machine

/-- RESET (R66): `st <- 0x00`, `evq <- 0`, from any state. -/
def execReset (s : State) : Host.Outcome State Fault Refusal := .next (s.write 0x00 false)

/-- EVAL (R67): the evaluation on the block's table, `st <- next`, `evq <- 1`, or a model fault that
writes nothing. -/
def execEval (levelA levelB : Bool) (s : State) : Host.Outcome State Fault Refusal :=
  evalOn transitionRom levelA levelB s

/-- IDLE (R68): `evq <- 0`; an undefined `st` stays undefined. -/
def execIdle (s : State) : Host.Outcome State Fault Refusal := .next (s.setEvq false)

/-- The event a step hands to the consumer, the transaction level's `emit(dir)` (00_scope.md R10, R12):
every EVAL that completes emits one, no other step does. -/
def emitted (i : Instr) (s : State) : Option DirectionEvent :=
  match i with
  | .reset => none
  | .eval levelA levelB =>
    match evaluate transitionRom s.st levelA levelB with
    | .error _ => none
    | .ok r => some r.dir
  | .idle => none

end Sys2Proof.Machine
end

