-- ==== Sys2Proof/Machine/Dispatch.lean ====
section
/-! DEFINITION. One arm per operation. -/

namespace Sys2Proof.Machine

def exec (i : Instr) (s : State) : Host.Outcome State Fault Refusal :=
  match i with
  | .reset => Sys2Proof.Machine.execReset s
  | .eval levelA levelB => Sys2Proof.Machine.execEval levelA levelB s
  | .idle => Sys2Proof.Machine.execIdle s

end Sys2Proof.Machine
end

