-- ==== Sys2Proof/Machine/Step.lean ====
section
/-!
DEFINITION. One step: sample the input vector, decode it, perform the operation
(40_fsm_operations.md R62; 30_encoding.md R58).
-/

namespace Sys2Proof.Machine

/-- One rising edge of `clk`. -/
def step (s : State) : Host.Outcome State Fault Refusal :=
  exec (decodeVector s.sampled) s.afterSample

/-- The state whose next step samples the table word `w` (its low 4 bits, the input vector; log 10). -/
def State.withFetchWord (s : State) (nbits w : Nat) : State :=
  s.present (BitVec.ofNat 4 (w % 2 ^ nbits))

end Sys2Proof.Machine
end

