-- ==== Sys2Proof/Machine/Run.lean ====
section
/-!
DEFINITION. Runs: finite sequences of input vectors, the events they emit, the recorded model fault and
the observation (70_reset_and_hazards.md R138; 60_exceptions.md R104).
-/

namespace Sys2Proof.Machine

/-- The record of a run so far: the state, the events handed to the consumer in step order, and the
model fault recorded, if any (log 5). -/
structure RunRecord where
  state : State
  events : List DirectionEvent
  fault : Option Fault
deriving DecidableEq, Repr

/-- A run that has not begun. -/
def RunRecord.start (s : State) : RunRecord := { state := s, events := [], fault := none }

/-- What the outcome of a step on operation `i` adds to the record. A faulting step leaves the state as it
was and emits nothing (R103). No step of this model is refused (log 18). -/
def RunRecord.record (r : RunRecord) (i : Instr) : Host.Outcome State Fault Refusal → RunRecord
  | .next t => { state := t, events := r.events ++ (emitted i r.state).toList, fault := none }
  | .fault f => { r with fault := some f }
  | .refused _ => r

/-- One more input vector. A recorded fault is final and sticky: "no later step (a RESET included) clears
the record" (R104). -/
def RunRecord.advance (r : RunRecord) (v : InputVector) : RunRecord :=
  match r.fault with
  | some _ => r
  | none => r.record (decodeVector v) (step (r.state.present v))

/-- The vectors applied one per step (R138). -/
def RunRecord.extend (r : RunRecord) (vs : List InputVector) : RunRecord := vs.foldl RunRecord.advance r

/-- The run of a sequence of vectors from a state. -/
def run (s : State) (vs : List InputVector) : RunRecord := (RunRecord.start s).extend vs

/-- What is observed of a run: "the list of events emitted, in step order, one per EVAL; the final `st`",
or "the model fault that stopped it" (R138). -/
inductive Observation where
  | completed (events : List DirectionEvent) (st : EncoderState)
  | stopped (f : Fault)
deriving DecidableEq, Repr

/-- The observation of a run's record. -/
def RunRecord.observation (r : RunRecord) : Observation :=
  match r.fault with
  | some f => .stopped f
  | none => .completed r.events r.state.st

/-- The observation of the run of `vs` from `s`. -/
def observe (s : State) (vs : List InputVector) : Observation := (run s vs).observation

/-- The contribution of one event to the tick count (00_scope.md R12). -/
def tickOf : DirectionEvent → Int
  | .positive => 1
  | .negative => -1
  | .none => 0

/-- "the number of Positive events minus the number of Negative events" (00_scope.md R12). -/
def tickCount (events : List DirectionEvent) : Int := (events.map tickOf).sum

/-- The ticks among events: Positive and Negative ones (00_scope.md R11). -/
def ticksOf (events : List DirectionEvent) : List DirectionEvent := events.filter (· ≠ .none)

/-- The EVAL operation of a code, `EVAL #c` (30_encoding.md R59). -/
def evalOfCode (c : Code) : Instr := .eval (c.getLsbD 0) (c.getLsbD 1)

/-- The canonical vector of `EVAL #c` (30_encoding.md R49). -/
def evalVector (c : Code) : InputVector := encode (evalOfCode c)

/-- The code a vector evaluates, if it is an EVAL. -/
def codeEvaluated (v : InputVector) : Option Code :=
  match decodeVector v with
  | .reset => none
  | .eval levelA levelB => some (codeOf levelA levelB)
  | .idle => none

/-- The codes of the EVALs of a sequence of vectors, in step order. -/
def evalCodes (vs : List InputVector) : List Code := vs.filterMap codeEvaluated

/-- Contact bounce: `n` codes alternating `x, y, x, y, ...` (42_direction_extract.md R94). -/
def alternating (x y : Code) : Nat → List Code
  | 0 => []
  | n + 1 => x :: alternating y x n

/-- The code after `c` in the cyclic order 0→1→3→2→0 (42_direction_extract.md R91). -/
def forwardCode (c : Code) : Code := if c = 0 then 1 else if c = 1 then 3 else if c = 3 then 2 else 0

/-- The code after `c` in the reverse order 0→2→3→1→0 (R91). -/
def backwardCode (c : Code) : Code := if c = 0 then 2 else if c = 2 then 3 else if c = 3 then 1 else 0

/-- `n` codes in the order `next`, from `c` on. -/
def traversal (next : Code → Code) : Code → Nat → List Code
  | _, 0 => []
  | c, n + 1 => c :: traversal next (next c) n

/-- The phase, if `st` is defined (10_state.md R15). -/
def EncoderState.phase? : EncoderState → Option (BitVec 4)
  | .undefined => none
  | .holds v => some (phaseOf v)

end Sys2Proof.Machine
end

