-- ==== Sys2Proof/Machine/Assembly.lean ====
section
/-!
DEFINITION. Programs as written: statements and pseudo-instructions (30_encoding.md R59, R60), their
vectors in hexadecimal (R49), and the text of one statement a line (R59; log 14).
-/

namespace Sys2Proof.Machine

/-- The operations a statement stands for (R59, R60). -/
def expand : Stmt → List Instr
  | .reset => [.reset]
  | .idle => [.idle]
  | .evalLevels a b => [.eval (a == 1) (b == 1)]
  | .evalCode c => [evalOfCode (BitVec.ofNat 2 c)]
  | .idles n => List.replicate n .idle
  | .detentNeg => [evalOfCode 1, evalOfCode 0, evalOfCode 2, evalOfCode 3]
  | .detentPos => [evalOfCode 2, evalOfCode 0, evalOfCode 1, evalOfCode 3]

/-- The operations of a program, in order. -/
def expandProgram (p : Program) : List Instr := p.flatMap expand

/-- The canonical vectors of a well-formed program; none for an ill-formed one (R49, R59). -/
def assemble (p : Program) : Option (List InputVector) :=
  if p.wellFormed then some ((expandProgram p).map encode) else none

/-! ### Vectors in hexadecimal, one digit per step (R49) -/

/-- The hexadecimal digits. -/
def hexDigits : List Char :=
  ['0', '1', '2', '3', '4', '5', '6', '7', '8', '9', 'A', 'B', 'C', 'D', 'E', 'F']

/-- The digit of a vector. -/
def hexDigit (v : InputVector) : Char := hexDigits.getD v.toNat '0'

/-- The vector of a digit. -/
def ofHexDigit (c : Char) : Option InputVector :=
  match hexDigits.findIdx? (· == c) with
  | some k => some (BitVec.ofNat 4 k)
  | none => none

/-- The digits of a sequence of vectors, a space after each. -/
def digitsText : List InputVector → List Char
  | [] => []
  | v :: vs => hexDigit v :: ' ' :: digitsText vs

/-- The vectors of a text of digits, spaces skipped; none for any other character. -/
def readDigits : List Char → Option (List InputVector)
  | [] => some []
  | c :: cs =>
    if c = ' ' then readDigits cs
    else
      match ofHexDigit c, readDigits cs with
      | some v, some vs => some (v :: vs)
      | _, _ => none

/-! ### The text of a program (R59) -/

/-- "Text from `;` to the end of the line is a comment" (R59). -/
def stripComment (line : List Char) : List Char := line.takeWhile (· != ';')

/-- A space, a tab or a carriage return. -/
def isBlank (c : Char) : Bool := c == ' ' || c == '\t' || c == '\r'

/-- The token collected so far, if any. -/
def flushToken (acc : List Char) : List (List Char) := if acc.isEmpty then [] else [acc]

/-- The tokens of a line: words between blanks, a comma being a token of its own. -/
def tokensFrom : List Char → List Char → List (List Char)
  | acc, [] => flushToken acc
  | acc, c :: cs =>
    if isBlank c then flushToken acc ++ tokensFrom [] cs
    else if c == ',' then flushToken acc ++ [','] :: tokensFrom [] cs
    else tokensFrom (acc ++ [c]) cs

/-- A decimal numeral. -/
def numeral (ds : List Char) : Option Nat :=
  if !ds.isEmpty && ds.all Char.isDigit then
    some (ds.foldl (fun n d => 10 * n + (d.toNat - '0'.toNat)) 0)
  else none

/-- The word `RESET`. -/
def wordReset : List Char := ['R', 'E', 'S', 'E', 'T']
/-- The word `IDLE`. -/
def wordIdle : List Char := ['I', 'D', 'L', 'E']
/-- The word `EVAL`. -/
def wordEval : List Char := ['E', 'V', 'A', 'L']
/-- The word `DETENT_NEG`. -/
def wordDetentNeg : List Char := ['D', 'E', 'T', 'E', 'N', 'T', '_', 'N', 'E', 'G']
/-- The word `DETENT_POS`. -/
def wordDetentPos : List Char := ['D', 'E', 'T', 'E', 'N', 'T', '_', 'P', 'O', 'S']

/-- The statement of a line's tokens. -/
def stmtOfTokens : List (List Char) → Option Stmt
  | [w] =>
    if w = wordReset then some .reset
    else if w = wordIdle then some .idle
    else if w = wordDetentNeg then some .detentNeg
    else if w = wordDetentPos then some .detentPos
    else none
  | [w, x] =>
    if w = wordIdle then (numeral x).map .idles
    else if w = wordEval then
      match x with
      | '#' :: ds => (numeral ds).map .evalCode
      | _ => none
    else none
  | [w, a, [','], b] =>
    if w = wordEval then
      match numeral a, numeral b with
      | some m, some n => some (.evalLevels m n)
      | _, _ => none
    else none
  | _ => none

/-- A line: no statement (blank or comment only), one statement, or an error. -/
def parseLine (line : List Char) : Option (Option Stmt) :=
  match tokensFrom [] (stripComment line) with
  | [] => some none
  | ts => (stmtOfTokens ts).map some

/-- The lines of a text. -/
def linesFrom : List Char → List Char → List (List Char)
  | acc, [] => [acc]
  | acc, c :: cs => if c == '\n' then acc :: linesFrom [] cs else linesFrom (acc ++ [c]) cs

/-- The statements of lines, or none if one is in error. -/
def parseLines : List (List Char) → Option Program
  | [] => some []
  | l :: ls =>
    match parseLine l, parseLines ls with
    | some none, some p => some p
    | some (some x), some p => some (x :: p)
    | _, _ => none

/-- The program of a text (R59). -/
def parseProgram (text : List Char) : Option Program := parseLines (linesFrom [] text)

end Sys2Proof.Machine
end

