-- ==== Sys2Proof/Machine/Bank.lean ====
section
/-!
DEFINITION. Several decoders, one per encoder, that share no mutable state (20_memory.md R46;
60_exceptions.md R116; log 12).
-/

namespace Sys2Proof.Machine

/-- The decoders, by position: each has its own record. -/
structure Bank where
  decoders : List RunRecord
deriving DecidableEq, Repr

/-- The decoders 0 to `nDec - 1`, each in its own start state. `N_DEC` is open and taken as an argument
(00_scope.md R8, D19). -/
def Bank.start (nDec : Nat) (init : Nat → State) : Bank :=
  ⟨(List.range nDec).map fun k => RunRecord.start (init k)⟩

/-- `N_DEC` decoders right after reset; each draws its own free values (log 20). -/
def Bank.reset (nDec : Nat) : Bank := .start nDec fun k => { State.reset with unit := k }

/-- `N_DEC` decoders before the first RESET of each: "Each starts from its own RESET" (60_exceptions.md R116;
log 20). -/
def Bank.powerOn (nDec : Nat) : Bank := .start nDec State.powerOn

/-- Decoder `k` performs one step with vector `v`. The steps of the decoders interleave freely. -/
def Bank.advance (b : Bank) (e : Nat × InputVector) : Bank :=
  ⟨b.decoders.modify e.1 (·.advance e.2)⟩

/-- An interleaving of the decoders' steps. -/
def Bank.extend (b : Bank) (es : List (Nat × InputVector)) : Bank := es.foldl Bank.advance b

/-- The vectors of an interleaving that are decoder `k`'s. -/
def vectorsFor (k : Nat) (es : List (Nat × InputVector)) : List InputVector :=
  (es.filter (·.1 == k)).map Prod.snd

end Sys2Proof.Machine
end

