-- ==== Sys2Proof/Machine/Lookup.lean ====
section
/-!
DEFINITION. The transition graph by phase names (10_state.md R21; 41_transition_lookup.md R76 to R81)
and the decoder as a (phase, direction) pair (10_state.md R17; 41_transition_lookup.md R87).
-/

namespace Sys2Proof.Machine

/-- The phases by name (10_state.md R21). -/
inductive Phase where
  | start
  | negFinal
  | negBegin
  | negNext
  | posBegin
  | posFinal
  | posNext
deriving DecidableEq, Repr

/-- The value of a phase (R21). -/
def Phase.bits : Phase → BitVec 4
  | .start => 0
  | .negFinal => 1
  | .negBegin => 2
  | .negNext => 3
  | .posBegin => 4
  | .posFinal => 5
  | .posNext => 6

/-- The phase a value names; 7 to 15 name none (20_memory.md R35). -/
def Phase.ofBits (p : BitVec 4) : Option Phase :=
  if p = 0 then some .start
  else if p = 1 then some .negFinal
  else if p = 2 then some .negBegin
  else if p = 3 then some .negNext
  else if p = 4 then some .posBegin
  else if p = 5 then some .posFinal
  else if p = 6 then some .posNext
  else none

/-- The direction that a path through the phase can end in (R21). -/
def Phase.path : Phase → Option DirectionEvent
  | .start => none
  | .negFinal | .negBegin | .negNext => some .negative
  | .posBegin | .posFinal | .posNext => some .positive

/-- The class of a cell of the table (41_transition_lookup.md R80). -/
inductive CellClass where
  | stay
  | advance
  | retreat
  | abort
  | complete
deriving DecidableEq, Repr

/-- A cell of R76: next phase, event, class. -/
structure NamedCell where
  next : Phase
  event : DirectionEvent
  cls : CellClass
deriving DecidableEq, Repr

/-- The cell of a row of four, by code. -/
def ofRow (c0 c1 c2 c3 : NamedCell) (code : Code) : NamedCell :=
  if code = 0 then c0 else if code = 1 then c1 else if code = 2 then c2 else c3

/-- The table by phase names, row by row as R76 writes it. -/
def namedCell : Phase → Code → NamedCell
  | .start =>
    ofRow ⟨.start, .none, .stay⟩ ⟨.negBegin, .none, .advance⟩
      ⟨.posBegin, .none, .advance⟩ ⟨.start, .none, .stay⟩
  | .negFinal =>
    ofRow ⟨.negNext, .none, .retreat⟩ ⟨.start, .none, .abort⟩
      ⟨.negFinal, .none, .stay⟩ ⟨.start, .negative, .complete⟩
  | .negBegin =>
    ofRow ⟨.negNext, .none, .advance⟩ ⟨.negBegin, .none, .stay⟩
      ⟨.start, .none, .abort⟩ ⟨.start, .none, .retreat⟩
  | .negNext =>
    ofRow ⟨.negNext, .none, .stay⟩ ⟨.negBegin, .none, .retreat⟩
      ⟨.negFinal, .none, .advance⟩ ⟨.start, .none, .abort⟩
  | .posBegin =>
    ofRow ⟨.posNext, .none, .advance⟩ ⟨.start, .none, .abort⟩
      ⟨.posBegin, .none, .stay⟩ ⟨.start, .none, .retreat⟩
  | .posFinal =>
    ofRow ⟨.posNext, .none, .retreat⟩ ⟨.posFinal, .none, .stay⟩
      ⟨.start, .none, .abort⟩ ⟨.start, .positive, .complete⟩
  | .posNext =>
    ofRow ⟨.posNext, .none, .stay⟩ ⟨.posFinal, .none, .advance⟩
      ⟨.posBegin, .none, .retreat⟩ ⟨.start, .none, .abort⟩

/-- The code of the EVAL that entered the phase; START can be entered with any code
(41_transition_lookup.md R81). -/
def enteringCode : Phase → Option Code
  | .start => none
  | .negFinal => some 2
  | .negBegin => some 1
  | .negNext => some 0
  | .posBegin => some 2
  | .posFinal => some 1
  | .posNext => some 0

/-- The phase mirrored: 1↔5, 2↔4, 3↔6 (41_transition_lookup.md R78). -/
def Phase.mirror : Phase → Phase
  | .start => .start
  | .negFinal => .posFinal
  | .negBegin => .posBegin
  | .negNext => .posNext
  | .posBegin => .negBegin
  | .posFinal => .negFinal
  | .posNext => .negNext

/-- The code mirrored: 1↔2 (R78). -/
def mirrorCode (c : Code) : Code := if c = 1 then 2 else if c = 2 then 1 else c

/-- Negative and Positive swapped (R78). -/
def mirrorEvent : DirectionEvent → DirectionEvent
  | .negative => .positive
  | .positive => .negative
  | .none => .none

/-- `st` as "the pair (phase ∈ 0..6, dir ∈ {None, Negative, Positive})" (10_state.md R17). -/
structure PairState where
  phase : Phase
  dir : DirectionEvent
deriving DecidableEq, Repr

/-- `st = {0b00, dir_bits, phase[3:0]}` (R17). -/
def PairState.toByte (p : PairState) : Byte := 0b00#2 ++ dirBitsOf p.dir ++ p.phase.bits

/-- An operation on the pair, from the table by names: the new pair and the event
(41_transition_lookup.md R87). -/
def PairState.apply (p : PairState) : Instr → PairState × Option DirectionEvent
  | .reset => (⟨.start, .none⟩, none)
  | .eval levelA levelB =>
    let cell := namedCell p.phase (codeOf levelA levelB)
    (⟨cell.next, cell.event⟩, some cell.event)
  | .idle => (p, none)

/-- A run of the pair machine: the final pair and the events in step order. -/
def PairState.run (p : PairState) : List InputVector → PairState × List DirectionEvent
  | [] => (p, [])
  | v :: vs =>
    let out := p.apply (decodeVector v)
    let rest := out.1.run vs
    (rest.1, out.2.toList ++ rest.2)

end Sys2Proof.Machine
end

