-- ==== Sys2Proof/Safety.lean ====
section
/-!
DEFINITION. What counts as a safe start and a safe run: the reachable values of `st` (10_state.md R18),
the launch premises (70_reset_and_hazards.md R139) and runs with no model fault recorded
(60_exceptions.md R104).
-/

namespace Sys2Proof.Machine

/-- The nine values `st` can take starting from reset (10_state.md R18). -/
def reachableValues : List Byte := [0x00, 0x01, 0x02, 0x03, 0x04, 0x05, 0x06, 0x10, 0x20]

/-- Reachable entry: `st` holds a value of the reachable set (70_reset_and_hazards.md R139 (b)). -/
def State.ready (s : State) : Bool :=
  match s.st with
  | .undefined => false
  | .holds v => reachableValues.contains v

/-- The values `st` can have on any run that begins at power-on or at reset: undefined until the first
RESET, then a reachable value (10_state.md R18, R29). -/
def State.lawful (s : State) : Bool :=
  match s.st with
  | .undefined => true
  | .holds v => reachableValues.contains v

/-- Clean entry: the run begins with RESET (70_reset_and_hazards.md R139 (a)). -/
def cleanEntry : List InputVector → Bool
  | [] => false
  | v :: _ => rstBit v

/-- A run is safe when no model fault is recorded (60_exceptions.md R104). -/
def SafeRun (s : State) (vs : List InputVector) : Prop := (run s vs).fault = none

end Sys2Proof.Machine
end

