-- ==== Sys2Proof/Certificates/Slice0/Obligations.lean ====
section
/-!
DEFINITION. The statements for the provers. Each docstring names the rule of spec/ it formalises, or the
section it rests on. `{ s with edge := s.edge + 1 }` is the model's own count of clock edges (log 2); no
statement says anything of its value.
-/

open Sys2Proof Sys2Proof.Machine

/-! ### The three operations -/

/-- R66: RESET sets `st` to 0x00 and `evq` to 0 from any state, emits nothing and never faults; every
vector with `in[3] = 1` is RESET and its canonical vector is 0x8. -/
def Obligations.ResetClearsEveryState : Prop :=
  (∀ s : State, exec .reset s = .next { s with st := .holds 0x00, evq := false } ∧
    emitted .reset s = none) ∧
  (∀ (s : State) (v : InputVector), v.getLsbD 3 = true →
    decodeVector v = .reset ∧
    step (s.present v) =
      .next { s with st := .holds 0x00, evq := false, edge := s.edge + 1 } ∧
    emitted (decodeVector v) s = none) ∧
  encode .reset = 0x8

/-- R67: the whole of EVAL, on the block's table. An undefined `st` raises NoReset, a phase above 6 raises
BadPhase, an entry with direction bits 0x30 raises BadFlags; otherwise `st` becomes the entry of the row
`st[3:0]` and the column code, `evq` becomes 1 and the entry's direction is emitted. From every phase 0 to
6 no fault arises. The last clause is the test of 0x30 on any table. -/
def Obligations.EvalLoadsTheTableEntry : Prop :=
  (∀ (a b : Bool),
    encode (.eval a b) = 0x4 + ((BitVec.ofBool b).setWidth 4 <<< 1) + (BitVec.ofBool a).setWidth 4 ∧
    decodeVector (encode (.eval a b)) = .eval a b) ∧
  (∀ (a b : Bool) (s : State), s.st = .undefined →
    exec (.eval a b) s = .fault (.noReset (codeOf a b)) ∧ emitted (.eval a b) s = none) ∧
  (∀ (a b : Bool) (s : State) (v : Byte), s.st = .holds v → 6 < (v &&& 0x0F).toNat →
    exec (.eval a b) s = .fault (.badPhase v (codeOf a b)) ∧ emitted (.eval a b) s = none) ∧
  (∀ (a b : Bool) (s : State) (v : Byte), s.st = .holds v → (v &&& 0x0F).toNat ≤ 6 →
    ∃ next, (transitionRows[(v &&& 0x0F).toNat]?.bind fun r => r[(codeOf a b).toNat]?) = some next ∧
      next &&& 0x30 ≠ 0x30 ∧
      exec (.eval a b) s = .next { s with st := .holds next, evq := true } ∧
      emitted (.eval a b) s =
        some (if next &&& 0x30 = 0x10 then .negative
              else if next &&& 0x30 = 0x20 then .positive else .none)) ∧
  (∀ (rom : Memory) (a b : Bool) (s : State) (v next : Byte), s.st = .holds v → phaseOf v ≤ 6 →
    tableRead rom (phaseOf v) (codeOf a b) = some next → next &&& 0x30 = 0x30 →
    evalOn rom a b s = .fault (.badFlags next (codeOf a b))) ∧
  (∀ (a b : Bool) (s : State), exec (.eval a b) s = evalOn transitionRom a b s)

/-- R68: IDLE writes `evq <- 0` and nothing else, also where `st` is undefined; it emits nothing and never
faults; the levels are ignored; and any number of IDLEs before an EVAL changes nothing that EVAL
computes. -/
def Obligations.IdleChangesOnlyTheEventBit : Prop :=
  (∀ s : State, exec .idle s = .next { s with evq := false } ∧ emitted .idle s = none) ∧
  (∀ (s : State) (v : InputVector), v.extractLsb' 2 2 = 0 →
    decodeVector v = .idle ∧
    step (s.present v) = .next { s with evq := false, edge := s.edge + 1 }) ∧
  encode .idle = 0x0 ∧
  (∀ (s : State) (idles : List InputVector) (v : InputVector),
    (∀ w ∈ idles, decodeVector w = .idle) →
    observe s (idles ++ [v]) = observe s [v])

/-- The frame of the three operations (10_state.md section 1; 20_memory.md section 1): when an operation
completes, the environment's stream is as it was, `evq` is 1 exactly after EVAL, `st` changes only by RESET
and EVAL, and RESET and EVAL leave `st` defined. There is no other state, and the table is no state. (The
stream, the edge index and the decoder's index are the model's own: log 1, log 2, log 20.) -/
def Obligations.OperationsWriteOnlyTheirRegisters : Prop :=
  ∀ (i : Instr) (s t : State), exec i s = .next t →
    t.inputs = s.inputs ∧ t.edge = s.edge ∧ t.unit = s.unit ∧
    (t.evq = true ↔ ∃ a b, i = .eval a b) ∧
    (i = .idle → t.st = s.st) ∧
    (i ≠ .idle → ∃ v, t.st = .holds v)

/-- R62: a step on the vector `v` performs the operation `v` selects: RESET if `in[3]`, else EVAL of
`level_a = in[0]`, `level_b = in[1]` if `in[2]`, else IDLE. The result is a new state or a model fault, and
a model fault only from a state reset cannot reach. The step is a function of (`st`, `in`): from two states
with the same `st`, whatever else they hold, it gives the same `st`, the same `evq`, the same event and the
same fault. -/
def Obligations.StepPerformsTheDecodedOperation : Prop :=
  (∀ (s : State) (v : InputVector), step (s.present v) =
    exec (if v.getLsbD 3 then .reset
          else if v.getLsbD 2 then .eval (v.getLsbD 0) (v.getLsbD 1) else .idle)
      { s with edge := s.edge + 1 }) ∧
  (∀ s : State, (∃ t, step s = .next t) ∨ (∃ f, step s = .fault f ∧ s.ready = false)) ∧
  (∀ (s t : State) (v : InputVector), s.st = t.st →
    emitted (decodeVector v) s = emitted (decodeVector v) t ∧
    (∀ s', step (s.present v) = .next s' →
      ∃ t', step (t.present v) = .next t' ∧ t'.st = s'.st ∧ t'.evq = s'.evq) ∧
    (∀ f, step (s.present v) = .fault f → step (t.present v) = .fault f))

/-- The step of any state, on whatever the environment drives: the operation of the sampled vector, with the
sampled item used up and the edge counted (40_fsm_operations.md section 1). The stream `inputs` and the count
`edge` are the model's choice (log 1, log 2). -/
def Obligations.StepUsesUpTheSampledItem : Prop :=
  ∀ s : State, step s =
    exec (decodeVector s.sampled) { s with inputs := s.inputs.tail, edge := s.edge + 1 }

/-- The host's word: the step after `withFetchWord` performs the operation of the word's low 4 bits
(log 10). -/
def Obligations.FetchWordIsTheNextOperation : Prop :=
  ∀ (s : State) (v : InputVector), step (s.withFetchWord 8 v.toNat) =
      exec (decodeVector v) { s with edge := s.edge + 1 } ∧
    decodeTableWord 8 v.toNat = some (decodeVector v)

/-! ### Encoding -/

/-- R48: the vector decodes to exactly one operation, RESET first. -/
def Obligations.VectorSelectsOneOperation : Prop :=
  ∀ v : InputVector,
    (v.getLsbD 3 = true → decodeVector v = .reset) ∧
    (v.getLsbD 3 = false → v.getLsbD 2 = true →
      decodeVector v = .eval (v.getLsbD 0) (v.getLsbD 1) ∧ codeEvaluated v = some (v.extractLsb' 0 2)) ∧
    (v.getLsbD 3 = false → v.getLsbD 2 = false → decodeVector v = .idle)

/-- The operation map of 30_encoding.md section 6: the three (match, mask) patterns cover each of the 16
vectors exactly once, and the one that covers a vector is its operation's. -/
def Obligations.OpcodeRowsPartitionTheVectors : Prop :=
  opcodeRows.map (fun r => (r.value, r.mask)) =
    [(0b1000, 0b1000), (0b0100, 0b1100), (0b0000, 0b1100)] ∧
  ∀ v : InputVector, mnemonicsOf v = [(decodeVector v).mnemonic]

/-- R49: the canonical encodings, the vectors that share them, and programs as hexadecimal digits, one per
step, each the digit of its vector's value. R49 does not say whether a digit above 9 is written in upper or
lower case, and nor does this statement. -/
def Obligations.CanonicalVectorsOfTheOperations : Prop :=
  encode .reset = 0b1000 ∧ encode .idle = 0b0000 ∧
  (∀ c : Code, encode (evalOfCode c) = 0x4 + c.setWidth 4) ∧
  (∀ v : InputVector, v.getLsbD 3 = true → canonicalVector v = 0x8) ∧
  (∀ v ∈ [0x1#4, 0x2#4, 0x3#4], canonicalVector v = 0x0) ∧
  (∀ vs : List InputVector, (digitsText vs).filter (· ≠ ' ') = vs.map hexDigit) ∧
  (∀ v : InputVector, hexDigits[v.toNat]? = some (hexDigit v)) ∧
  (hexDigits.map Char.toLower).zip (List.range 16) =
    [('0', 0), ('1', 1), ('2', 2), ('3', 3), ('4', 4), ('5', 5), ('6', 6), ('7', 7),
     ('8', 8), ('9', 9), ('a', 10), ('b', 11), ('c', 12), ('d', 13), ('e', 14), ('f', 15)]

/-- The hexadecimal digits as the model writes and reads them (30_encoding.md section 1). That a digit above 9
is in upper case, and that no other character is a digit, is the model's choice (log 14). -/
def Obligations.VectorDigitsAreUpperCase : Prop :=
  hexDigits.zip (List.range 16) =
    [('0', 0), ('1', 1), ('2', 2), ('3', 3), ('4', 4), ('5', 5), ('6', 6), ('7', 7),
     ('8', 8), ('9', 9), ('A', 10), ('B', 11), ('C', 12), ('D', 13), ('E', 14), ('F', 15)] ∧
  (∀ v : InputVector, ofHexDigit (hexDigit v) = some v) ∧
  (∀ c : Char, c ∉ hexDigits → ofHexDigit c = none)

/-- R50: `code = (levelB << 1) | levelA`, so `code[1] = level_b`, `code[0] = level_a`,
`code = in[1:0]`. -/
def Obligations.CodeIsTheTwoLevels : Prop :=
  (∀ a b : Bool, codeOf a b = ((BitVec.ofBool b).setWidth 2 <<< 1) ||| (BitVec.ofBool a).setWidth 2) ∧
  (∀ a b : Bool, (codeOf a b).getLsbD 1 = b ∧ (codeOf a b).getLsbD 0 = a) ∧
  (∀ v : InputVector, codeOf (v.getLsbD 0) (v.getLsbD 1) = v.extractLsb' 0 2)

/-- Adjacent and opposite codes, as 30_encoding.md section 2 lists them, and the Gray-code order. -/
def Obligations.AdjacentAndOppositeCodes : Prop :=
  (∀ c d : Code, adjacent c d = true ↔
    (c, d) ∈ [(0, 1), (1, 0), (1, 3), (3, 1), (3, 2), (2, 3), (2, 0), (0, 2)]) ∧
  (∀ c d : Code, opposite c d = true ↔ (c, d) ∈ [(0, 3), (3, 0), (1, 2), (2, 1)]) ∧
  (∀ c : Code, adjacent c (forwardCode c) = true ∧ backwardCode (forwardCode c) = c)

/-- R47: all four bits are sampled together, each from its port. -/
def Obligations.InputVectorIsSampledWhole : Prop :=
  (∀ (s : State) (v : InputVector), (s.present v).sampled = v) ∧
  (∀ (s : State) (d : PortDrive),
    (s.presentDrive d).sampled.getLsbD 3 = d.rst ∧ (s.presentDrive d).sampled.getLsbD 2 = d.eval ∧
    (d.levelB = .high → (s.presentDrive d).sampled.getLsbD 1 = true) ∧
    (d.levelB = .low → (s.presentDrive d).sampled.getLsbD 1 = false) ∧
    (d.levelA = .high → (s.presentDrive d).sampled.getLsbD 0 = true) ∧
    (d.levelA = .low → (s.presentDrive d).sampled.getLsbD 0 = false))

/-- Words written out from the spec's encoding (95_test_vectors.md section 2.1) decode to their operations,
and a byte whose high nibble is not zero is rejected (the model's choice, log 9). -/
def Obligations.WrittenOutWordsDecode : Prop :=
  decodeVector 0b1000 = .reset ∧ decodeVector 0b1111 = .reset ∧
  decodeVector 0b0100 = .eval false false ∧ decodeVector 0b0101 = .eval true false ∧
  decodeVector 0b0110 = .eval false true ∧ decodeVector 0b0111 = .eval true true ∧
  decodeVector 0b0000 = .idle ∧ decodeVector 0b0011 = .idle ∧
  decodeByte 0x15 = .error (.notAVector 0x15)

/-- Decode and encode agree, from one operation to whole programs (30_encoding.md sections 1 and 6): every
operation is read back from its canonical vector; a program of bytes is read back operation by operation and
holds nothing but vectors; a well-formed source program assembles, and its vectors, its digits and its bytes
all read back as the operations its statements stand for. The byte form is the model's (log 9). -/
def Obligations.AssembledProgramsDecodeAsWritten : Prop :=
  (∀ i : Instr, decodeVector (encode i) = i) ∧
  (∀ is : List Instr, decodeProgram (is.map encodeByte) = .ok is) ∧
  (∀ (bs : List Byte) (is : List Instr), decodeProgram bs = .ok is →
    bs.length = is.length ∧ ∀ b ∈ bs, b < 16) ∧
  (∀ p : Program, (∃ vs, assemble p = some vs) ↔ p.wellFormed = true) ∧
  (∀ (p : Program) (vs : List InputVector), assemble p = some vs →
    vs.map decodeVector = expandProgram p ∧
    readDigits (digitsText vs) = some vs ∧
    decodeProgram (vs.map vectorByte) = .ok (expandProgram p))

/-- The assembler statements and pseudo-instructions of 30_encoding.md section 6: the line of text of each is
read as its statement, whatever the numerals in it; the statements assemble to their vectors, those with an
operand out of range not at all; a comment runs to the end of its line. How words are separated in a line, and
that numerals are decimal, is the model's choice (log 14). -/
def Obligations.AssemblerStatementsAssemble : Prop :=
  assemble [.reset] = some [0x8] ∧ assemble [.idle] = some [0x0] ∧
  (∀ a b : Nat, a < 2 → b < 2 →
    assemble [.evalLevels a b] = some [BitVec.ofNat 4 (4 + 2 * b + a)]) ∧
  (∀ c : Nat, c < 4 → assemble [.evalCode c] = some [BitVec.ofNat 4 (4 + c)]) ∧
  (∀ n : Nat, assemble [.idles n] = some (List.replicate n 0x0)) ∧
  assemble [.detentNeg] = some [0x5, 0x4, 0x6, 0x7] ∧
  assemble [.detentPos] = some [0x6, 0x4, 0x5, 0x7] ∧
  (∀ a b : Nat, 2 ≤ a ∨ 2 ≤ b → assemble [.evalLevels a b] = none) ∧
  (∀ c : Nat, 4 ≤ c → assemble [.evalCode c] = none) ∧
  parseLine ['R', 'E', 'S', 'E', 'T'] = some (some .reset) ∧
  parseLine ['I', 'D', 'L', 'E'] = some (some .idle) ∧
  (∀ a b : Nat, parseLine (['E', 'V', 'A', 'L', ' '] ++ Nat.toDigits 10 a ++ [',', ' '] ++ Nat.toDigits 10 b) =
    some (some (.evalLevels a b))) ∧
  (∀ c : Nat, parseLine (['E', 'V', 'A', 'L', ' ', '#'] ++ Nat.toDigits 10 c) = some (some (.evalCode c))) ∧
  (∀ n : Nat, parseLine (['I', 'D', 'L', 'E', ' '] ++ Nat.toDigits 10 n) = some (some (.idles n))) ∧
  parseLine ['D', 'E', 'T', 'E', 'N', 'T', '_', 'N', 'E', 'G'] = some (some .detentNeg) ∧
  parseLine ['D', 'E', 'T', 'E', 'N', 'T', '_', 'P', 'O', 'S'] = some (some .detentPos) ∧
  (∀ line comment : List Char, ';' ∉ line → parseLine (line ++ ';' :: comment) = parseLine line)

/-! ### The table -/

/-- R75: the 28 entries, by row and column and in linear form. -/
def Obligations.TransitionTableContents : Prop :=
  ((List.range 7).map fun r => (List.range 4).map fun c =>
      tableRead transitionRom (BitVec.ofNat 4 r) (BitVec.ofNat 2 c)) =
    [[some 0x00, some 0x02, some 0x04, some 0x00],
     [some 0x03, some 0x00, some 0x01, some 0x10],
     [some 0x03, some 0x02, some 0x00, some 0x00],
     [some 0x03, some 0x02, some 0x01, some 0x00],
     [some 0x06, some 0x00, some 0x04, some 0x00],
     [some 0x06, some 0x05, some 0x00, some 0x20],
     [some 0x06, some 0x05, some 0x04, some 0x00]] ∧
  ((List.range 28).map fun a => memRead transitionRom (BitVec.ofNat 5 a)) =
    [some 0x00, some 0x02, some 0x04, some 0x00, some 0x03, some 0x00, some 0x01, some 0x10,
     some 0x03, some 0x02, some 0x00, some 0x00, some 0x03, some 0x02, some 0x01, some 0x00,
     some 0x06, some 0x00, some 0x04, some 0x00, some 0x06, some 0x05, some 0x00, some 0x20,
     some 0x06, some 0x05, some 0x04, some 0x00] ∧
  transitionRom.length = 28

/-- R34: entry (row, col) is at address 4*row + col, MemRead is TableRead of the address's parts, and
addresses 28 to 31 are not populated. -/
def Obligations.TableIsLinearlyAddressed : Prop :=
  (∀ (row : BitVec 3) (col : Code), (row ++ col).toNat = 4 * row.toNat + col.toNat) ∧
  (∀ (row : BitVec 3) (col : Code),
    memRead transitionRom (row ++ col) = tableRead transitionRom (row.setWidth 4) col) ∧
  (∀ (row : BitVec 3) (col : Code), row ≠ 7 → ∃ e, memRead transitionRom (row ++ col) = some e) ∧
  (∀ addr : BitVec 5, 28 ≤ addr → memRead transitionRom addr = none)

/-- The table as the model holds it (20_memory.md section 1): a list of cells in canonical form that has no
cell at any address from 28 on, beyond the 5-bit addresses too. Both are the model's own (log 17). -/
def Obligations.TableHasNoOtherCells : Prop :=
  (∀ addr : Nat, 28 ≤ addr → transitionRom.read addr = none) ∧
  transitionRom.wf = true

/-- R35: rows 7 to 15 are not populated, and an EVAL from such a phase raises BadPhase and writes
nothing. -/
def Obligations.UnpopulatedRowsRaiseBadPhase : Prop :=
  (∀ (row : BitVec 4) (col : Code), 6 < row → tableRead transitionRom row col = none) ∧
  (∀ (a b : Bool) (s : State) (v : Byte), s.st = .holds v → 6 < (v &&& 0x0F).toNat →
    exec (.eval a b) s = .fault (.badPhase v (codeOf a b))) ∧
  (∀ (r : RunRecord) (v : Byte) (w : InputVector) (c : Code), r.fault = none → r.state.st = .holds v →
    6 < (v &&& 0x0F).toNat → codeEvaluated w = some c →
    r.advance w = { r with fault := some (.badPhase v c) })

/-- R54, R88, R89: the direction bits of an EVAL, the event they map to, and BadFlags for 0x30, which no
entry has. -/
def Obligations.DirectionBitsMapToEvents : Prop :=
  (∀ next : Byte, directionBits next = next &&& 0x30) ∧
  directionOf 0x10 = .negative ∧ directionOf 0x20 = .positive ∧ directionOf 0x00 = .none ∧
  (∀ (row : BitVec 4) (col : Code) (e : Byte), tableRead transitionRom row col = some e →
    e &&& 0x30 ∈ [0x00#8, 0x10#8, 0x20#8]) ∧
  (∀ (rom : Memory) (a b : Bool) (s t : State), evalOn rom a b s = .next t →
    ∃ v next, s.st = .holds v ∧ tableRead rom (phaseOf v) (codeOf a b) = some next ∧
      t.st = .holds next ∧ t.evq = true ∧ next &&& 0x30 ≠ 0x30) ∧
  (∀ (rom : Memory) (a b : Bool) (s : State) (v next : Byte), s.st = .holds v → phaseOf v ≤ 6 →
    tableRead rom (phaseOf v) (codeOf a b) = some next → next &&& 0x30 = 0x30 →
    evalOn rom a b s = .fault (.badFlags next (codeOf a b))) ∧
  (∀ (a b : Bool) (s t : State), exec (.eval a b) s = .next t →
    ∃ next, t.st = .holds next ∧ emitted (.eval a b) s = some (directionOf (next &&& 0x30)) ∧
      t.ports.evDir = dirBitsOf (directionOf (next &&& 0x30)))

/-- The table by phase names (41_transition_lookup.md sections 1 and 2): each named cell is the entry of the
table, and its class is the one its definition gives: stay on the entering code, abort on the opposite code,
complete where an event is emitted; each phase but START determines the code that entered it. The list of
pairs is a path of section 2, each phase with the code that leads to it, from rest at code 3 back to START: at
place `k` of it, advance is the next code and leads to the next phase, retreat is the code before and leads to
the phase before, complete is the last code and leads to START. START stays on codes 0 and 3, and advances on
codes 1 and 2 to the first phase of either path. -/
def Obligations.NamedCellsAreTheTable : Prop :=
  (∀ (p : Phase) (c : Code), tableRead transitionRom p.bits c =
    some (PairState.toByte ⟨(namedCell p c).next, (namedCell p c).event⟩)) ∧
  (∀ (p : Phase) (c e : Code), enteringCode p = some e →
    ((namedCell p c).cls = .stay ↔ c = e) ∧
    ((namedCell p c).cls = .stay ↔ (namedCell p c).next = p) ∧
    ((namedCell p c).cls = .abort ↔ opposite c e = true) ∧
    ((namedCell p c).cls = .complete ↔ (namedCell p c).event ≠ .none) ∧
    ((namedCell p c).cls = .abort → (namedCell p c).next = .start)) ∧
  (∀ path ∈ [[(Phase.start, (3 : Code)), (.negBegin, 1), (.negNext, 0), (.negFinal, 2), (.start, 3)],
             [(Phase.start, (3 : Code)), (.posBegin, 2), (.posNext, 0), (.posFinal, 1), (.start, 3)]],
    ∀ k ∈ [1, 2, 3], ∀ before here after, path[k - 1]? = some before → path[k]? = some here →
      path[k + 1]? = some after → ∀ c : Code,
        ((namedCell here.1 c).cls = .advance ↔ k < 3 ∧ c = after.2) ∧
        ((namedCell here.1 c).cls = .advance → (namedCell here.1 c).next = after.1) ∧
        ((namedCell here.1 c).cls = .retreat ↔ c = before.2) ∧
        ((namedCell here.1 c).cls = .retreat → (namedCell here.1 c).next = before.1) ∧
        ((namedCell here.1 c).cls = .complete ↔ k = 3 ∧ c = after.2) ∧
        ((namedCell here.1 c).cls = .complete → (namedCell here.1 c).next = .start)) ∧
  (∀ c : Code,
    ((namedCell .start c).cls = .stay ↔ c = 0 ∨ c = 3) ∧
    ((namedCell .start c).cls = .advance ↔ c = 1 ∨ c = 2) ∧
    ((namedCell .start c).cls = .stay → (namedCell .start c).next = .start) ∧
    ((namedCell .start c).event = .none)) ∧
  (namedCell .start 1).next = .negBegin ∧ (namedCell .start 2).next = .posBegin ∧
  (∀ (p q : Phase) (c : Code), (namedCell p c).next = q → q ≠ .start → enteringCode q = some c) ∧
  (∀ p : Phase, Phase.ofBits p.bits = some p) ∧
  (∀ w : BitVec 4, 6 < w → Phase.ofBits w = none)

/-- The transition graph (41_transition_lookup.md section 2): the two paths are mirror images, and no cell
leads from a phase of one path to a phase of the other. -/
def Obligations.PathsMirrorAndNeverMix : Prop :=
  (∀ (p : Phase) (c : Code),
    (namedCell p.mirror (mirrorCode c)).next = (namedCell p c).next.mirror ∧
    (namedCell p.mirror (mirrorCode c)).event = mirrorEvent (namedCell p c).event ∧
    (namedCell p.mirror (mirrorCode c)).cls = (namedCell p c).cls) ∧
  (∀ (p : Phase) (c : Code), p ≠ .start → (namedCell p c).next ≠ .start →
    (namedCell p c).next.path = p.path) ∧
  (∀ (p : Phase) (c : Code), (namedCell p c).event ≠ .none →
    p.path = some (namedCell p c).event)

/-- Which cells reach START, which carry a flag, and column 3 (41_transition_lookup.md section 2), with the
zero bits of every entry (30_encoding.md section 3). -/
def Obligations.CellsThatReachStart : Prop :=
  (∀ (r : BitVec 4) (c : Code) (e : Byte), tableRead transitionRom r c = some e →
    (phaseOf e = 0 ↔ (r.toNat, c.toNat) ∈
      [(0, 0), (0, 3), (1, 1), (1, 3), (2, 2), (2, 3), (3, 3), (4, 1), (4, 3), (5, 2), (5, 3), (6, 3)]) ∧
    (e &&& 0x30 ≠ 0 ↔ (r.toNat, c.toNat) ∈ [(1, 3), (5, 3)]) ∧
    (c = 3 → phaseOf e = 0) ∧
    e.getLsbD 7 = false ∧ e.getLsbD 6 = false ∧ e.getLsbD 3 = false) ∧
  tableRead transitionRom 1 3 = some 0x10 ∧ tableRead transitionRom 5 3 = some 0x20

/-! ### Reset, reachable states, model faults -/

/-- R20, R29: the values at reset, `st` undefined before the first RESET, and NoReset for an EVAL that reads
it. -/
def Obligations.ResetValuesOfTheRegisters : Prop :=
  State.reset.st = .holds 0x00 ∧ State.reset.evq = false ∧
  phaseOf 0x00 = Phase.start.bits ∧ eventOfDir (dirField 0x00) = some .none ∧
  (∀ unit, (State.powerOn unit).st = .undefined) ∧
  (∀ (s : State) (a b : Bool), s.st = .undefined →
    exec (.eval a b) s = .fault (.noReset (codeOf a b)))

/-- The state at reset is in the reachable set (10_state.md section 1). -/
def Obligations.ResetStateIsReady : Prop :=
  State.reset.ready = true ∧ State.reset.lawful = true ∧ ∀ unit, (State.powerOn unit).lawful = true

/-- The invariant of the block (10_state.md section 1; 60_exceptions.md section 1): from a state whose `st`
is one of the nine reachable values, every step completes, whatever the environment drives, and `st` is again
one of them; from a state whose `st` may still be undefined, a step that completes leaves such a state, and
the one fault is NoReset. -/
def Obligations.EveryStepKeepsReadyStates : Prop :=
  (∀ s : State, s.ready = true → ∃ t, step s = .next t ∧ t.ready = true) ∧
  (∀ s t : State, s.lawful = true → step s = .next t → t.lawful = true) ∧
  (∀ (s : State) (f : Fault), s.lawful = true → step s = .fault f →
    s.st = .undefined ∧ ∃ c, f = .noReset c)

/-- R65: until the first RESET `st` is undefined: IDLEs keep it so and emit nothing, an EVAL raises NoReset,
a RESET defines it. -/
def Obligations.UndefinedUntilTheFirstReset : Prop :=
  ∀ s : State, s.st = .undefined →
    (∀ idles : List InputVector, (∀ w ∈ idles, decodeVector w = .idle) →
      (run s idles).state.st = .undefined ∧ observe s idles = .completed [] .undefined ∧
      (∀ v c, codeEvaluated v = some c → observe s (idles ++ [v]) = .stopped (.noReset c)) ∧
      (∀ v, rstBit v = true → observe s (idles ++ [v]) = .completed [] (.holds 0x00)))

/-- The model faults (60_exceptions.md section 1): exactly when an operation faults, with which recorded
value and number; a faulting step writes and emits nothing; RESET and IDLE never fault. -/
def Obligations.ModelFaultsExactly : Prop :=
  (∀ (i : Instr) (s : State) (f : Fault), exec i s = .fault f ↔
    ∃ a b, i = .eval a b ∧
      ((s.st = .undefined ∧ f = .noReset (codeOf a b)) ∨
       (∃ v, s.st = .holds v ∧ 6 < phaseOf v ∧ f = .badPhase v (codeOf a b)))) ∧
  (∀ (i : Instr) (s : State) (r : Refusal), exec i s ≠ .refused r) ∧
  (∀ (r : RunRecord) (v : InputVector) (f : Fault), r.fault = none → (r.advance v).fault = some f →
    (r.advance v).state = r.state ∧ (r.advance v).events = r.events) ∧
  (∀ c, (Fault.noReset c).number = 1) ∧ (∀ v c, (Fault.badPhase v c).number = 2) ∧
  (∀ e c, (Fault.badFlags e c).number = 3)

/-- R105: when several conditions hold the first of NoReset, BadPhase, BadFlags is reported, on any table. -/
def Obligations.ModelFaultsInOrder : Prop :=
  ∀ (rom : Memory) (a b : Bool) (s : State),
    (s.st = .undefined → evalOn rom a b s = .fault (.noReset (codeOf a b))) ∧
    (∀ v e, s.st = .holds v → 6 < phaseOf v → tableRead rom (phaseOf v) (codeOf a b) = some e →
      e &&& 0x30 = 0x30 → evalOn rom a b s = .fault (.badPhase v (codeOf a b))) ∧
    (∀ e c, evalOn rom a b s = .fault (.badFlags e c) →
      ∃ v, s.st = .holds v ∧ phaseOf v ≤ 6 ∧ tableRead rom (phaseOf v) (codeOf a b) = some e)

/-- R104: a recorded model fault is final: no later vector, a RESET included, changes the record. -/
def Obligations.RecordedFaultIsFinal : Prop :=
  ∀ (s : State) (vs ws : List InputVector) (f : Fault),
    (run s vs).fault = some f →
    run s (vs ++ ws) = run s vs ∧ observe s (vs ++ ws) = .stopped f

/-- A run that begins with RESET never records a model fault, emits one event for each of its EVALs and ends
in the reachable set (60_exceptions.md section 1; 70_reset_and_hazards.md section 5). -/
def Obligations.CleanRunsNeverFault : Prop :=
  ∀ (s : State) (vs : List InputVector), cleanEntry vs = true →
    SafeRun s vs ∧ (run s vs).state.ready = true ∧
    (run s vs).events.length = (evalCodes vs).length

/-- What is observed of a run that begins with RESET is a function of its vectors alone
(60_exceptions.md section 6): the state before it does not show. -/
def Obligations.ResetHidesThePast : Prop :=
  ∀ (s t : State) (vs : List InputVector), cleanEntry vs = true → observe s vs = observe t vs

/-- A RESET in the middle of a run (70_reset_and_hazards.md section 3): what was under way is discarded, and
the events after it are those of a run from reset. -/
def Obligations.ResetDiscardsThePartialPath : Prop :=
  ∀ (s : State) (vs ws : List InputVector) (v : InputVector), rstBit v = true → SafeRun s vs →
    (run s (vs ++ v :: ws)).events = (run s vs).events ++ (run State.reset ws).events ∧
    (run s (vs ++ v :: ws)).state.st = (run State.reset ws).state.st

/-- Reset held over several steps, and the steps after it until the first EVAL
(70_reset_and_hazards.md section 1): the registers are as after one RESET, no event is emitted, `ev_valid`
is 0. -/
def Obligations.HeldResetIsOneReset : Prop :=
  ∀ (s : State) (resets idles : List InputVector), resets ≠ [] →
    (∀ v ∈ resets, rstBit v = true) → (∀ v ∈ idles, decodeVector v = .idle) →
    (run s (resets ++ idles)).state.st = .holds 0x00 ∧
    (run s (resets ++ idles)).state.evq = false ∧
    (run s (resets ++ idles)).events = [] ∧
    (run s (resets ++ idles)).state.ports = ⟨false, 0b00, 0x00⟩

/-- A start state outside the reachable set (70_reset_and_hazards.md section 5): phases 0 to 6 are evaluated
with no fault, whatever the other bits, and the state after is reachable; phases 7 to 15 raise BadPhase. -/
def Obligations.StrayBitsOfTheStateAreIgnored : Prop :=
  ∀ (s : State) (v : Byte) (a b : Bool), s.st = .holds v →
    (phaseOf v ≤ 6 → ∃ t, exec (.eval a b) s = .next t ∧ t.ready = true ∧
      exec (.eval a b) { s with st := .holds ((phaseOf v).setWidth 8) } = .next t) ∧
    (6 < phaseOf v → exec (.eval a b) s = .fault (.badPhase v (codeOf a b)))

/-! ### Events and ports -/

/-- R12: every EVAL that completes emits exactly one event, no other step emits one, and the tick count is
the number of Positive events minus the number of Negative events. -/
def Obligations.EveryEvalEmitsOneEvent : Prop :=
  (∀ (i : Instr) (s t : State), exec i s = .next t →
    ((∃ e, emitted i s = some e) ↔ ∃ a b, i = .eval a b)) ∧
  (∀ (s : State) (vs : List InputVector), SafeRun s vs →
    (run s vs).events.length = (evalCodes vs).length) ∧
  (∀ es : List DirectionEvent,
    tickCount es = (es.count .positive : Int) - (es.count .negative : Int))

/-- The output ports (30_encoding.md section 5) of a block whose `st` is defined; `ev_dir` is never 0b11 in
the reachable set. -/
def Obligations.OutputPortsOfTheRegisters : Prop :=
  (∀ (s : State) (v : Byte), s.st = .holds v →
    s.ports.evValid = s.evq ∧ s.ports.stQ = v ∧
    s.ports.evDir = if s.evq then v.extractLsb' 4 2 else 0b00) ∧
  (∀ s : State, s.ready = true → s.ports.evDir ≠ 0b11)

/-- R58: from the edge of a step to the next edge the ports show that step's event; after a RESET or an IDLE
`ev_valid` is 0 and `ev_dir` is 0b00. (Before the first RESET the ports are any value, so `st` is defined
after the step.) -/
def Obligations.PortsShowTheEventOfTheStep : Prop :=
  ∀ (s t : State) (v : InputVector), step (s.present v) = .next t → t.st ≠ .undefined →
    t.ports.evValid = (emitted (decodeVector v) s).isSome ∧
    t.ports.evDir = (match emitted (decodeVector v) s with | some e => dirBitsOf e | none => 0b00) ∧
    (codeEvaluated v = none → t.ports.evValid = false ∧ t.ports.evDir = 0b00)

/-- R16: the direction field is that of the entry the last EVAL read; it stays through IDLEs until the next
EVAL or RESET; it is no input of the lookup. -/
def Obligations.DirectionFieldIsTransient : Prop :=
  (∀ (a b : Bool) (s t : State) (v : Byte), s.st = .holds v → exec (.eval a b) s = .next t →
    ∃ e, tableRead transitionRom (phaseOf v) (codeOf a b) = some e ∧ t.st = .holds e ∧
      (e &&& 0x30 = 0x10 → dirField e = 0b01) ∧ (e &&& 0x30 = 0x20 → dirField e = 0b10) ∧
      (e &&& 0x30 ≠ 0x10 → e &&& 0x30 ≠ 0x20 → dirField e = 0b00)) ∧
  (∀ (s : State) (idles : List InputVector), (∀ v ∈ idles, decodeVector v = .idle) →
    (run s idles).state.st = s.st) ∧
  (∀ s t : State, exec .reset s = .next t → ∃ v, t.st = .holds v ∧ dirField v = 0b00) ∧
  (∀ (s : State) (v w : Byte) (vs : List InputVector), phaseOf v = phaseOf w → phaseOf v ≤ 6 →
    evalCodes vs ≠ [] →
    observe { s with st := .holds v } vs = observe { s with st := .holds w } vs)

/-- When an EVAL emits a tick (42_direction_extract.md section 1): Negative exactly from phase 1 on code 3,
Positive exactly from phase 5 on code 3, None otherwise. -/
def Obligations.TicksOnlyOnCompletion : Prop :=
  ∀ (s : State) (v : Byte) (a b : Bool), s.st = .holds v → phaseOf v ≤ 6 →
    (emitted (.eval a b) s = some .negative ↔ phaseOf v = 1 ∧ codeOf a b = 3) ∧
    (emitted (.eval a b) s = some .positive ↔ phaseOf v = 5 ∧ codeOf a b = 3) ∧
    (emitted (.eval a b) s = some .none ↔ ¬ (phaseOf v = 1 ∧ codeOf a b = 3) ∧
      ¬ (phaseOf v = 5 ∧ codeOf a b = 3))

/-- An EVAL from phase START, with or without a flag (40_fsm_operations.md section 3;
70_reset_and_hazards.md section 2): codes 0 to 3 give 0x00, 0x02, 0x04, 0x00 and no tick. -/
def Obligations.EvalFromStartBeginsAPath : Prop :=
  ∀ (s : State) (v : Byte) (c : Code), s.st = .holds v → phaseOf v = 0 →
    exec (evalOfCode c) s = .next
      { s with st := .holds (if c = 1 then 0x02 else if c = 2 then 0x04 else 0x00), evq := true } ∧
    emitted (evalOfCode c) s = some .none

/-! ### Debounce and counting -/

/-- R69: an EVAL with the levels of the EVAL before it emits None, whatever the state before and however many
IDLEs lie between. -/
def Obligations.RepeatedLevelsEmitNone : Prop :=
  ∀ (s : State) (v w : InputVector) (idles : List InputVector) (c : Code),
    codeEvaluated v = some c → codeEvaluated w = some c → (∀ x ∈ idles, decodeVector x = .idle) →
    SafeRun s (v :: idles) →
    (run s (v :: idles ++ [w])).events = (run s (v :: idles)).events ++ [.none]

/-- A duplicate EVAL leaves the phase unchanged except after an abort by code 1 or 2, where it begins a path
(42_direction_extract.md section 3). -/
def Obligations.DuplicateEvalPhase : Prop :=
  ∀ (s : State) (v : Byte) (c : Code), s.st = .holds v → phaseOf v ≤ 6 →
    if (phaseOf v = 1 ∧ c = 1) ∨ (phaseOf v = 4 ∧ c = 1) then
      (run s [evalVector c]).state.st = .holds 0x00 ∧
      (run s [evalVector c, evalVector c]).state.st = .holds 0x02
    else if (phaseOf v = 2 ∧ c = 2) ∨ (phaseOf v = 5 ∧ c = 2) then
      (run s [evalVector c]).state.st = .holds 0x00 ∧
      (run s [evalVector c, evalVector c]).state.st = .holds 0x04
    else
      (run s [evalVector c, evalVector c]).state.st.phase? = (run s [evalVector c]).state.st.phase?

/-- An EVAL whose code is opposite to the code before it emits None; from a phase on a path it returns to
START; from START entered by an abort it begins the other path (41_transition_lookup.md section 2;
42_direction_extract.md section 3; the reading of 90_conflicts.md C4). -/
def Obligations.OppositeCodeEmitsNone : Prop :=
  (∀ (s : State) (v w : InputVector) (idles : List InputVector) (c d : Code),
    codeEvaluated v = some c → codeEvaluated w = some d → opposite c d = true →
    (∀ x ∈ idles, decodeVector x = .idle) → SafeRun s (v :: idles) →
    (run s (v :: idles ++ [w])).events = (run s (v :: idles)).events ++ [.none] ∧
    ((run s (v :: idles)).state.st.phase? ≠ some 0 →
      (run s (v :: idles ++ [w])).state.st = .holds 0x00) ∧
    ((run s (v :: idles)).state.st.phase? = some 0 → c = 0 ∨ c = 3 →
      (run s (v :: idles ++ [w])).state.st = .holds 0x00) ∧
    ((run s (v :: idles)).state.st.phase? = some 0 → c = 1 →
      (run s (v :: idles ++ [w])).state.st = .holds 0x04) ∧
    ((run s (v :: idles)).state.st.phase? = some 0 → c = 2 →
      (run s (v :: idles ++ [w])).state.st = .holds 0x02))

/-- Hysteresis (42_direction_extract.md section 2): from phase START, let every step up to `vs` have left the
phase off START. If the next step emits Negative, then it is an EVAL of code 3 from phase 1, every phase since
START was 1, 2 or 3, the first code was 1, and 1, 0, 2 were seen in that order; the same for Positive with
code 3 from phase 5, phases 4, 5, 6, first code 2, and 2, 0, 1. -/
def Obligations.TickNeedsAFullPath : Prop :=
  ∀ (s : State) (vs : List InputVector) (v : InputVector),
    s.st.phase? = some 0 →
    (∀ n, 0 < n → n ≤ vs.length → (run s (vs.take n)).state.st.phase? ≠ some 0) →
    ((run s (vs ++ [v])).events = (run s vs).events ++ [.negative] →
      codeEvaluated v = some 3 ∧ (run s vs).state.st.phase? = some 1 ∧
      (evalCodes vs).head? = some 1 ∧ [1, 0, 2].Sublist (evalCodes vs) ∧
      (∀ n, 0 < n → n ≤ vs.length →
        (run s (vs.take n)).state.st.phase? ∈ [some 1, some 2, some 3])) ∧
    ((run s (vs ++ [v])).events = (run s vs).events ++ [.positive] →
      codeEvaluated v = some 3 ∧ (run s vs).state.st.phase? = some 5 ∧
      (evalCodes vs).head? = some 2 ∧ [2, 0, 1].Sublist (evalCodes vs) ∧
      (∀ n, 0 < n → n ≤ vs.length →
        (run s (vs.take n)).state.st.phase? ∈ [some 4, some 5, some 6]))

/-- Counting (42_direction_extract.md section 2): `k` detents from rest at code 3 give exactly `k` ticks, each
at the last step of its detent; `k` full cycles from code 0 give `k − 1`; the phase after the detents is
START. -/
def Obligations.DetentsAreCountedOnce : Prop :=
  ∀ (s : State) (k : Nat), s.st.phase? = some 0 →
    (run s ((List.replicate k [1, 0, 2, 3]).flatten.map evalVector)).events =
      (List.replicate k [.none, .none, .none, .negative]).flatten ∧
    (run s ((List.replicate k [2, 0, 1, 3]).flatten.map evalVector)).events =
      (List.replicate k [.none, .none, .none, .positive]).flatten ∧
    (run s ((List.replicate k [1, 0, 2, 3]).flatten.map evalVector)).state.st.phase? = some 0 ∧
    (run s ((List.replicate k [2, 0, 1, 3]).flatten.map evalVector)).state.st.phase? = some 0 ∧
    ticksOf (run s ((0 :: (List.replicate k [1, 3, 2, 0]).flatten).map evalVector)).events =
      List.replicate (k - 1) .positive ∧
    ticksOf (run s ((0 :: (List.replicate k [2, 3, 1, 0]).flatten).map evalVector)).events =
      List.replicate (k - 1) .negative

/-- A traversal in one order never reports the other (42_direction_extract.md section 2), from START, from any
code on and for any length. -/
def Obligations.TraversalNeverReportsTheOther : Prop :=
  ∀ (s : State) (c : Code) (n : Nat), s.st.phase? = some 0 →
    DirectionEvent.negative ∉ (run s ((traversal forwardCode c n).map evalVector)).events ∧
    DirectionEvent.positive ∉ (run s ((traversal backwardCode c n).map evalVector)).events

/-- Debounce (42_direction_extract.md section 3): a run of EVALs alternating between two adjacent codes, from
any phase and of any length, emits no tick but in the listed cases, and there exactly one, at its first
code 3. -/
def Obligations.BounceEmitsAtMostOneTick : Prop :=
  ∀ (s : State) (v : Byte) (x y : Code) (n : Nat), s.st = .holds v → phaseOf v ≤ 6 →
    adjacent x y = true →
    ticksOf (run s ((alternating x y n).map evalVector)).events =
      if phaseOf v = 1 ∧ x = 3 ∧ 1 ≤ n then [.negative]
      else if phaseOf v = 1 ∧ x = 2 ∧ y = 3 ∧ 2 ≤ n then [.negative]
      else if phaseOf v = 3 ∧ x = 2 ∧ y = 3 ∧ 2 ≤ n then [.negative]
      else if phaseOf v = 5 ∧ x = 3 ∧ 1 ≤ n then [.positive]
      else if phaseOf v = 5 ∧ x = 1 ∧ y = 3 ∧ 2 ≤ n then [.positive]
      else if phaseOf v = 6 ∧ x = 1 ∧ y = 3 ∧ 2 ≤ n then [.positive]
      else []

/-- The events and the tick count of a run are those of its parts in step order (20_memory.md section 3;
42_direction_extract.md section 4): nothing is lost, nothing is counted twice. -/
def Obligations.TickCountIsTheSerialSum : Prop :=
  ∀ (s : State) (vs ws : List InputVector), SafeRun s vs →
    (run s (vs ++ ws)).events = (run s vs).events ++ (run (run s vs).state ws).events ∧
    tickCount (run s (vs ++ ws)).events =
      tickCount (run s vs).events + tickCount (run (run s vs).state ws).events

/-- IDLE steps anywhere in a run do not show in what is observed (40_fsm_operations.md section 2). -/
def Obligations.IdleStepsAreInvisible : Prop :=
  ∀ (s : State) (vs : List InputVector),
    observe s vs = observe s (vs.filter fun v => decodeVector v ≠ .idle)

/-- Bits an operation ignores have no effect (30_encoding.md section 4): a run is the run of its canonical
vectors. -/
def Obligations.IgnoredBitsHaveNoEffect : Prop :=
  ∀ (s : State) (vs : List InputVector), run s vs = run s (vs.map canonicalVector)

/-! ### Requests, other decoders, other realisations -/

/-- R108: a reset wins over any number of evaluation requests of the same step; the requests of several
requesters are one EVAL on the levels sampled; a request at the next step sees the completed state. -/
def Obligations.SimultaneousRequestsMerge : Prop :=
  (∀ (s : State) (requests : List Bool) (lb la : LineLevel),
    step (s.presentDrive (.fromRequesters true requests lb la)) =
      .next { s with st := .holds 0x00, evq := false, edge := s.edge + 1 }) ∧
  (∀ (s : State) (requests : List Bool) (lb la : LineLevel), true ∈ requests →
    step (s.presentDrive (.fromRequesters false requests lb la)) =
      exec (.eval (la.sample s.unit s.edge .lineA) (lb.sample s.unit s.edge .lineB))
        { s with edge := s.edge + 1 }) ∧
  (∀ (s : State) (requests : List Bool) (lb la : LineLevel), true ∉ requests →
    step (s.presentDrive (.fromRequesters false requests lb la)) =
      .next { s with evq := false, edge := s.edge + 1 }) ∧
  (∀ (s t : State) (v w : InputVector), step (s.present v) = .next t →
    step (t.present w) = exec (decodeVector w) { t with edge := t.edge + 1 })

/-- R46: decoders share no mutable state: in any interleaving of their steps, each decoder's record is that of
its own vectors. -/
def Obligations.DecodersAreIndependent : Prop :=
  ∀ (b : Bank) (es : List (Nat × InputVector)) (k : Nat) (r : RunRecord),
    b.decoders[k]? = some r →
    (b.extend es).decoders[k]? = some (r.extend (vectorsFor k es))

/-- The (phase, direction) pair is a realisation of the block (10_state.md section 1;
41_transition_lookup.md section 2): over every run, from every pair, it gives the same `st` and the same
events. -/
def Obligations.PairMachineRefinesTheBlock : Prop :=
  ∀ (s : State) (p : PairState) (vs : List InputVector), s.st = .holds p.toByte →
    (run s vs).fault = none ∧ (run s vs).events = (p.run vs).2 ∧
    (run s vs).state.st = .holds (p.run vs).1.toByte

/-- Every phase can be reached from START, and START from every phase in one EVAL of code 3
(41_transition_lookup.md section 2). -/
def Obligations.EveryPhaseIsReachable : Prop :=
  (∀ (s : State) (p : Phase), s.st.phase? = some 0 →
    ∃ cs : List Code, (run s (cs.map evalVector)).state.st.phase? = some p.bits) ∧
  (∀ s : State, s.ready = true → (run s [evalVector 3]).state.st.phase? = some 0)
end

