-- ==== Sys2Proof/Laws/Bank.lean ====
section
/-! SUPPORT. The decoders of a bank at its start. -/

namespace Sys2Proof.Machine

@[simp] theorem Bank.start_length (n : Nat) (init : Nat → State) :
    (Bank.start n init).decoders.length = n := by simp [Bank.start]

/-- Decoder `k` of a new bank has the start state of `k`, and so free values of its own. -/
theorem Bank.start_decoder {n k : Nat} (h : k < n) (init : Nat → State) :
    (Bank.start n init).decoders[k]? = some (RunRecord.start (init k)) := by
  simp [Bank.start, h]

/-- A step of one decoder leaves every other as it was. -/
theorem Bank.advance_other (b : Bank) {e : Nat × InputVector} {k : Nat} (h : e.1 ≠ k) :
    (b.advance e).decoders[k]? = b.decoders[k]? := by
  simp [Bank.advance, h]

/-- A step of a decoder is a step of its own record. -/
theorem Bank.advance_self (b : Bank) (e : Nat × InputVector) :
    (b.advance e).decoders[e.1]? = b.decoders[e.1]?.map (·.advance e.2) := by
  simp [Bank.advance]

end Sys2Proof.Machine
end

