-- ==== Sys2Proof/Laws/State.lean ====
section
/-! SUPPORT. What each update of State leaves in each field. -/

namespace Sys2Proof.Machine

@[simp] theorem State.write_st (s : State) (v : Byte) (e : Bool) : (s.write v e).st = .holds v := rfl
@[simp] theorem State.write_evq (s : State) (v : Byte) (e : Bool) : (s.write v e).evq = e := rfl
@[simp] theorem State.write_inputs (s : State) (v : Byte) (e : Bool) :
    (s.write v e).inputs = s.inputs := rfl
@[simp] theorem State.write_edge (s : State) (v : Byte) (e : Bool) : (s.write v e).edge = s.edge := rfl
@[simp] theorem State.write_unit (s : State) (v : Byte) (e : Bool) : (s.write v e).unit = s.unit := rfl

@[simp] theorem State.setEvq_st (s : State) (e : Bool) : (s.setEvq e).st = s.st := rfl
@[simp] theorem State.setEvq_evq (s : State) (e : Bool) : (s.setEvq e).evq = e := rfl
@[simp] theorem State.setEvq_inputs (s : State) (e : Bool) : (s.setEvq e).inputs = s.inputs := rfl
@[simp] theorem State.setEvq_edge (s : State) (e : Bool) : (s.setEvq e).edge = s.edge := rfl
@[simp] theorem State.setEvq_unit (s : State) (e : Bool) : (s.setEvq e).unit = s.unit := rfl

@[simp] theorem State.afterSample_st (s : State) : s.afterSample.st = s.st := rfl
@[simp] theorem State.afterSample_evq (s : State) : s.afterSample.evq = s.evq := rfl
@[simp] theorem State.afterSample_inputs (s : State) : s.afterSample.inputs = s.inputs.tail := rfl
@[simp] theorem State.afterSample_edge (s : State) : s.afterSample.edge = s.edge + 1 := rfl
@[simp] theorem State.afterSample_unit (s : State) : s.afterSample.unit = s.unit := rfl

@[simp] theorem State.presentDrive_st (s : State) (d : PortDrive) : (s.presentDrive d).st = s.st := rfl
@[simp] theorem State.presentDrive_evq (s : State) (d : PortDrive) :
    (s.presentDrive d).evq = s.evq := rfl
@[simp] theorem State.presentDrive_inputs (s : State) (d : PortDrive) :
    (s.presentDrive d).inputs = d :: s.inputs := rfl
@[simp] theorem State.presentDrive_edge (s : State) (d : PortDrive) :
    (s.presentDrive d).edge = s.edge := rfl
@[simp] theorem State.presentDrive_unit (s : State) (d : PortDrive) :
    (s.presentDrive d).unit = s.unit := rfl

/-- Sampling a presented item leaves the state it was presented to, one edge later. -/
@[simp] theorem State.afterSample_presentDrive (s : State) (d : PortDrive) :
    (s.presentDrive d).afterSample = { s with edge := s.edge + 1 } := rfl

@[simp] theorem State.present_afterSample (s : State) (v : InputVector) :
    (s.present v).afterSample = { s with edge := s.edge + 1 } := rfl

@[simp] theorem State.sampled_presentDrive (s : State) (d : PortDrive) :
    (s.presentDrive d).sampled = d.sample s.unit s.edge := rfl

end Sys2Proof.Machine
end

