-- ==== Sys2Proof/Laws/Decode.lean ====
section
/-! SUPPORT. The bits of a vector, the operation they select, and what sampling a driven vector gives. -/

namespace Sys2Proof

@[simp] theorem rstBit_inputVector (r e b a : Bool) : rstBit (inputVector r e b a) = r := by
  cases r <;> cases e <;> cases b <;> cases a <;> rfl
@[simp] theorem evalBit_inputVector (r e b a : Bool) : evalBit (inputVector r e b a) = e := by
  cases r <;> cases e <;> cases b <;> cases a <;> rfl
@[simp] theorem levelBBit_inputVector (r e b a : Bool) : levelBBit (inputVector r e b a) = b := by
  cases r <;> cases e <;> cases b <;> cases a <;> rfl
@[simp] theorem levelABit_inputVector (r e b a : Bool) : levelABit (inputVector r e b a) = a := by
  cases r <;> cases e <;> cases b <;> cases a <;> rfl

/-- A vector is made of its four bits. -/
theorem inputVector_bits (v : InputVector) :
    inputVector (rstBit v) (evalBit v) (levelBBit v) (levelABit v) = v := by
  revert v; decide

/-- The operation of a vector given by its bits. -/
theorem decodeVector_inputVector (r e b a : Bool) :
    decodeVector (inputVector r e b a) = if r then .reset else if e then .eval a b else .idle := by
  simp [decodeVector]

/-- Clearing the ignored bits does not change the operation. -/
theorem decodeVector_canonicalVector (v : InputVector) :
    decodeVector (canonicalVector v) = decodeVector v := by
  revert v; decide

namespace Machine

@[simp] theorem LineLevel.sample_ofBool (u n : Nat) (l : LineName) (b : Bool) :
    (LineLevel.ofBool b).sample u n l = b := by cases b <;> rfl

/-- A driven vector is sampled as it is driven. -/
@[simp] theorem PortDrive.sample_ofVector (u n : Nat) (v : InputVector) :
    (PortDrive.ofVector v).sample u n = v := by
  simp [PortDrive.sample, PortDrive.ofVector, inputVector_bits]

@[simp] theorem State.sampled_present (s : State) (v : InputVector) : (s.present v).sampled = v := by
  simp [State.present]

/-- A code is made of its two levels. -/
theorem codeOf_levels (c : Code) : codeOf (c.getLsbD 0) (c.getLsbD 1) = c := by
  revert c; decide

@[simp] theorem codeOf_getElem (k : Code) : codeOf k[0] k[1] = k := codeOf_levels k

end Machine

end Sys2Proof
end

