-- ==== Sys2Proof/Laws/Table.lean ====
section
/-! SUPPORT. The transition table: its canonical form, and what its entries are. -/

namespace Sys2Proof.Machine

/-- The only memory is in canonical form; nothing writes it (20_memory.md R30). -/
theorem transitionRom_wf : transitionRom.wf = true := by decide

/-- The entry of a populated row. -/
def entryOf (row : BitVec 4) (col : Code) : Byte := (tableRead transitionRom row col).getD 0

/-- Rows 0 to 6 are populated in every column (20_memory.md R33). -/
theorem tableRead_populated :
    ∀ row : BitVec 4, row ≤ 6 → ∀ col : Code,
      tableRead transitionRom row col = some (entryOf row col) := by decide

/-- Rows 7 to 15 are not populated (20_memory.md R35). -/
theorem tableRead_unpopulated :
    ∀ row : BitVec 4, 6 < row → ∀ col : Code, tableRead transitionRom row col = none := by decide

/-- Every entry is a reachable value of `st` and no entry has direction bits 0x30 (30_encoding.md R53,
R54; 10_state.md R18). -/
theorem entryOf_reachable :
    ∀ row : BitVec 4, ∀ col : Code, entryOf row col ∈ reachableValues := by decide

theorem entryOf_flags :
    ∀ row : BitVec 4, ∀ col : Code, directionBits (entryOf row col) ≠ 0x30 := by decide

/-- Every reachable value has a phase 0 to 6 (10_state.md R15). -/
theorem phaseOf_reachable : ∀ v ∈ reachableValues, phaseOf v ≤ 6 := by decide

end Sys2Proof.Machine
end

