-- ==== Sys2Proof/Laws/Ops.lean ====
section
/-! SUPPORT. Everything an evaluation on the block's table can do. -/

namespace Sys2Proof.Machine

/-- The evaluation of a phase with a row: the entry and its direction. -/
theorem evaluate_holds {v : Byte} (h : phaseOf v ≤ 6) (a b : Bool) :
    evaluate transitionRom (.holds v) a b =
      .ok { next := entryOf (phaseOf v) (codeOf a b),
            dir := directionOf (directionBits (entryOf (phaseOf v) (codeOf a b))) } := by
  have hn : ¬ phaseOf v > 6 := BitVec.not_lt.mpr h
  simp only [evaluate, if_neg hn, tableRead_populated _ h, if_neg (entryOf_flags _ _)]

/-- The evaluation of a phase with no row. -/
theorem evaluate_badPhase {v : Byte} (h : 6 < phaseOf v) (rom : Memory) (a b : Bool) :
    evaluate rom (.holds v) a b = .error (.badPhase v (codeOf a b)) := by
  simp only [evaluate, if_pos (show phaseOf v > 6 from h)]

/-- The evaluation of an undefined `st`. -/
theorem evaluate_undefined (rom : Memory) (a b : Bool) :
    evaluate rom .undefined a b = .error (.noReset (codeOf a b)) := rfl

/-- An evaluation on the block's table completes only from a phase with a row, and gives that row's
entry. -/
theorem evaluate_ok_cases {st : EncoderState} {a b : Bool} {r : Evaluation}
    (h : evaluate transitionRom st a b = .ok r) :
    ∃ v, st = .holds v ∧ phaseOf v ≤ 6 ∧ r.next = entryOf (phaseOf v) (codeOf a b) ∧
      r.dir = directionOf (directionBits r.next) := by
  cases st with
  | undefined => simp [evaluate_undefined] at h
  | holds v =>
    by_cases hv : phaseOf v ≤ 6
    · rw [evaluate_holds hv] at h
      cases h
      exact ⟨v, rfl, hv, rfl, rfl⟩
    · rw [evaluate_badPhase (BitVec.not_le.mp hv)] at h
      cases h

end Sys2Proof.Machine
end

