-- ==== Sys2Proof/Laws/PerInstr.lean ====
section
/-!
SUPPORT. The family EncodesInItsRow: an operation's canonical vector lies in the opcode-table row of its
own mnemonic and in no other (30_encoding.md R49, R61).
-/

/-- The rows that cover the canonical vector are exactly the row of the operation's mnemonic. -/
def Sys2Proof.Laws.EncodesInItsRow.Statement (i : Sys2Proof.Instr) : Prop :=
  Sys2Proof.mnemonicsOf (Sys2Proof.encode i) = [i.mnemonic]

theorem Sys2Proof.Laws.EncodesInItsRow.reset :
    Sys2Proof.Laws.EncodesInItsRow.Statement .reset := by
  unfold Sys2Proof.Laws.EncodesInItsRow.Statement; decide

theorem Sys2Proof.Laws.EncodesInItsRow.eval (levelA levelB : Bool) :
    Sys2Proof.Laws.EncodesInItsRow.Statement (.eval levelA levelB) := by
  unfold Sys2Proof.Laws.EncodesInItsRow.Statement; revert levelA levelB; decide

theorem Sys2Proof.Laws.EncodesInItsRow.idle :
    Sys2Proof.Laws.EncodesInItsRow.Statement .idle := by
  unfold Sys2Proof.Laws.EncodesInItsRow.Statement; decide
end

