-- ==== Sys2Proof/Laws/Step.lean ====
section
/-! SUPPORT. Everything one operation and one step can do. -/

namespace Sys2Proof.Machine

@[simp] theorem exec_reset (s : State) : exec .reset s = .next (s.write 0x00 false) := rfl
@[simp] theorem exec_idle (s : State) : exec .idle s = .next (s.setEvq false) := rfl
theorem exec_eval (a b : Bool) (s : State) : exec (.eval a b) s = evalOn transitionRom a b s := rfl

@[simp] theorem emitted_reset (s : State) : emitted .reset s = none := rfl
@[simp] theorem emitted_idle (s : State) : emitted .idle s = none := rfl

/-- EVAL, by what its evaluation gives. -/
theorem exec_eval_ok {s : State} {a b : Bool} {e : Evaluation}
    (h : evaluate transitionRom s.st a b = .ok e) : exec (.eval a b) s = .next (s.write e.next true) := by
  simp [exec_eval, evalOn, h]
theorem exec_eval_error {s : State} {a b : Bool} {f : Fault}
    (h : evaluate transitionRom s.st a b = .error f) : exec (.eval a b) s = .fault f := by
  simp [exec_eval, evalOn, h, raiseFault]
theorem emitted_eval_ok {s : State} {a b : Bool} {e : Evaluation}
    (h : evaluate transitionRom s.st a b = .ok e) : emitted (.eval a b) s = some e.dir := by
  simp [emitted, h]
theorem emitted_eval_error {s : State} {a b : Bool} {f : Fault}
    (h : evaluate transitionRom s.st a b = .error f) : emitted (.eval a b) s = none := by
  simp [emitted, h]

/-- EVAL from a phase with a row. -/
theorem exec_eval_holds {s : State} {v : Byte} (hs : s.st = .holds v) (h : phaseOf v ≤ 6) (a b : Bool) :
    exec (.eval a b) s = .next (s.write (entryOf (phaseOf v) (codeOf a b)) true) := by
  simp [exec_eval, evalOn, hs, evaluate_holds h]

/-- The event of EVAL from a phase with a row. -/
theorem emitted_eval_holds {s : State} {v : Byte} (hs : s.st = .holds v) (h : phaseOf v ≤ 6)
    (a b : Bool) :
    emitted (.eval a b) s =
      some (directionOf (directionBits (entryOf (phaseOf v) (codeOf a b)))) := by
  simp [emitted, hs, evaluate_holds h]

/-- What an operation that completes can do: RESET clears `st`, EVAL writes the entry of the row, IDLE
writes `evq` only. -/
theorem exec_next_cases {i : Instr} {s t : State} (h : exec i s = .next t) :
    (i = .reset ∧ t = s.write 0x00 false) ∨
    (∃ a b v, i = .eval a b ∧ s.st = .holds v ∧ phaseOf v ≤ 6 ∧
      t = s.write (entryOf (phaseOf v) (codeOf a b)) true) ∨
    (i = .idle ∧ t = s.setEvq false) := by
  cases i with
  | reset => simp only [exec_reset] at h; cases h; exact .inl ⟨rfl, rfl⟩
  | idle => simp only [exec_idle] at h; cases h; exact .inr (.inr ⟨rfl, rfl⟩)
  | eval a b =>
    simp only [exec_eval, evalOn] at h
    split at h
    · cases h
    · next r hr =>
      obtain ⟨v, hv, hp, hn, -⟩ := evaluate_ok_cases hr
      cases h
      exact .inr (.inl ⟨a, b, v, rfl, hv, hp, by rw [hn]⟩)

/-- No operation is refused. -/
theorem exec_ne_refused (i : Instr) (s : State) (r : Refusal) : exec i s ≠ .refused r := by
  cases i with
  | reset => simp
  | idle => simp
  | eval a b =>
    simp only [exec_eval, evalOn]
    split <;> simp [raiseFault]

/-- One step on a presented vector is its operation, one edge later. -/
theorem step_present (s : State) (v : InputVector) :
    step (s.present v) = exec (decodeVector v) { s with edge := s.edge + 1 } := by
  simp [step]

end Sys2Proof.Machine
end

