-- ==== Sys2Proof/Laws/Run.lean ====
section
/-! SUPPORT. Runs: how a run splits, what one more vector does, and what a run shows. -/

namespace Sys2Proof.Machine

@[simp] theorem RunRecord.start_state (s : State) : (RunRecord.start s).state = s := rfl
@[simp] theorem RunRecord.start_events (s : State) : (RunRecord.start s).events = [] := rfl
@[simp] theorem RunRecord.start_fault (s : State) : (RunRecord.start s).fault = none := rfl

@[simp] theorem RunRecord.extend_nil (r : RunRecord) : r.extend [] = r := rfl
@[simp] theorem RunRecord.extend_cons (r : RunRecord) (v : InputVector) (vs : List InputVector) :
    r.extend (v :: vs) = (r.advance v).extend vs := rfl
theorem RunRecord.extend_append (r : RunRecord) (vs ws : List InputVector) :
    r.extend (vs ++ ws) = (r.extend vs).extend ws := by simp [RunRecord.extend]

/-- A recorded fault stops the record. -/
theorem RunRecord.advance_of_fault {r : RunRecord} {f : Fault} (h : r.fault = some f) (v : InputVector) :
    r.advance v = r := by simp [RunRecord.advance, h]

@[simp] theorem RunRecord.record_next (r : RunRecord) (i : Instr) (t : State) :
    r.record i (.next t) = { state := t, events := r.events ++ (emitted i r.state).toList, fault := none } :=
  rfl
@[simp] theorem RunRecord.record_fault (r : RunRecord) (i : Instr) (f : Fault) :
    r.record i (.fault f) = { r with fault := some f } := rfl

/-- One more vector on a record with no fault, by the operation it selects. -/
theorem RunRecord.advance_of_none {r : RunRecord} (h : r.fault = none) (v : InputVector) :
    r.advance v =
      r.record (decodeVector v) (exec (decodeVector v) { r.state with edge := r.state.edge + 1 }) := by
  simp [RunRecord.advance, h, step_present]

/-- The part of a record that later vectors depend on: `st`, the events, the fault. -/
structure Shown where
  st : EncoderState
  events : List DirectionEvent
  fault : Option Fault
deriving DecidableEq, Repr

/-- What a record shows. -/
def RunRecord.shown (r : RunRecord) : Shown := { st := r.state.st, events := r.events, fault := r.fault }

/-- One operation on what is shown. -/
def Shown.apply (x : Shown) (i : Instr) : Shown :=
  match x.fault, i with
  | some _, _ => x
  | none, .reset => { x with st := .holds 0x00 }
  | none, .idle => x
  | none, .eval a b =>
    match evaluate transitionRom x.st a b with
    | .error f => { x with fault := some f }
    | .ok e => { x with st := .holds e.next, events := x.events ++ [e.dir] }

/-- A record shows what its operations make of what it showed: `evq`, `inputs`, `edge` and `unit` do
not matter. -/
theorem RunRecord.shown_advance (r : RunRecord) (v : InputVector) :
    (r.advance v).shown = r.shown.apply (decodeVector v) := by
  rcases r with ⟨s, es, f⟩
  cases f with
  | some f => rfl
  | none =>
    rw [RunRecord.advance_of_none rfl]
    cases decodeVector v with
    | reset => simp [RunRecord.shown, Shown.apply]
    | idle => simp [RunRecord.shown, Shown.apply]
    | eval a b =>
      cases he : evaluate transitionRom s.st a b with
      | error f =>
        rw [exec_eval_error (s := { s with edge := s.edge + 1 }) he]
        simp [RunRecord.shown, Shown.apply, he]
      | ok e =>
        rw [exec_eval_ok (s := { s with edge := s.edge + 1 }) he]
        simp [RunRecord.shown, Shown.apply, he, emitted_eval_ok he]

theorem RunRecord.shown_extend (r : RunRecord) (vs : List InputVector) :
    (r.extend vs).shown = (vs.map decodeVector).foldl Shown.apply r.shown := by
  induction vs generalizing r with
  | nil => rfl
  | cons v vs ih => simp [ih, RunRecord.shown_advance]

/-- What a whole run shows. -/
theorem run_shown (s : State) (vs : List InputVector) :
    (run s vs).shown = (vs.map decodeVector).foldl Shown.apply ⟨s.st, [], none⟩ :=
  RunRecord.shown_extend _ vs

/-- What is observed depends only on what is shown. -/
theorem RunRecord.observation_of_shown {r q : RunRecord} (h : r.shown = q.shown) :
    r.observation = q.observation := by
  rcases r with ⟨s, es, f⟩
  rcases q with ⟨t, ds, g⟩
  simp only [RunRecord.shown, Shown.mk.injEq] at h
  simp [RunRecord.observation, h.1, h.2.1, h.2.2]

end Sys2Proof.Machine
end

