-- ==== Sys2Proof/Tests/Slice0.lean ====
section
/-!
SUPPORT. The model's own tests. Expected values are from 95_test_vectors.md (its vector ids are named) and
30_encoding.md; then, for each statement with hypotheses, a concrete state and operands that meet them.
-/

namespace Sys2Proof.Tests

open Sys2Proof Sys2Proof.Machine

/-! ### Well-formedness: each check refuses an ill-formed term (30_encoding.md R59) -/

theorem test_illformed_levelA : Stmt.wellFormed (.evalLevels 2 0) = false := by decide
theorem test_illformed_levelB : Stmt.wellFormed (.evalLevels 1 2) = false := by decide
theorem test_illformed_code : Stmt.wellFormed (.evalCode 4) = false := by decide
theorem test_illformed_program : Program.wellFormed [.reset, .evalCode 4] = false := by decide
theorem test_wellformed_program :
    Program.wellFormed [.reset, .idle, .evalLevels 1 1, .evalCode 3, .idles 7, .detentNeg, .detentPos] =
      true := by decide
theorem test_wellformed_instr : Instr.wellFormed (.eval true false) = true := by decide

/-! ### Decoding words written out from the encoding (95 2.1) -/

theorem test_decode_reset : decodeVector 0b1000 = .reset ∧ decodeVector 0b1100 = .reset := by decide
theorem test_decode_eval :
    decodeVector 0b0101 = .eval true false ∧ decodeVector 0b0110 = .eval false true := by decide
theorem test_decode_idle : decodeVector 0b0000 = .idle ∧ decodeVector 0b0011 = .idle := by decide
theorem test_decode_table_word :
    decodeTableWord 8 0x8 = some .reset ∧ decodeTableWord 8 0x6 = some (.eval false true) ∧
      decodeTableWord 8 0x0 = some .idle ∧ decodeTableWord 8 0x18 = none := by decide
theorem test_decode_no_input : (decodeBytes []).toOption = none := by decide

/-! ### One step from a small state -/

/-- A state with this `st` and the event bit set. -/
def withSt (x : EncoderState) : State := { State.reset with st := x, evq := true }

/-- After one step with vector `v`: `st`, `evq` and the event; none if the step stops. -/
def after (x : EncoderState) (v : InputVector) : Option (EncoderState × Bool × Option DirectionEvent) :=
  match step ((withSt x).present v) with
  | .next t => some (t.st, t.evq, emitted (decodeVector v) (withSt x))
  | .fault _ => none
  | .refused _ => none

/-- R-1 to R-4 of 95 2.4: also from an undefined `st` and with `eval` set. -/
theorem test_reset_vectors :
    after .undefined 0x8 = some (.holds 0x00, false, none) ∧
    after (.holds 0x05) 0x8 = some (.holds 0x00, false, none) ∧
    after (.holds 0x10) 0x8 = some (.holds 0x00, false, none) ∧
    after (.holds 0x03) 0xF = some (.holds 0x00, false, none) := by decide

/-- I-1 to I-4 of 95 2.4. -/
theorem test_idle_vectors :
    after (.holds 0x03) 0x0 = some (.holds 0x03, false, none) ∧
    after (.holds 0x20) 0x0 = some (.holds 0x20, false, none) ∧
    after (.holds 0x06) 0x3 = some (.holds 0x06, false, none) ∧
    after .undefined 0x0 = some (.undefined, false, none) := by decide

/-- V1 to V36 of 95 2.2 and 2.3: `st` before, and `st` after codes 0 to 3. -/
def evalVectors : List (Byte × List Byte) :=
  [(0x00, [0x00, 0x02, 0x04, 0x00]), (0x01, [0x03, 0x00, 0x01, 0x10]), (0x02, [0x03, 0x02, 0x00, 0x00]),
   (0x03, [0x03, 0x02, 0x01, 0x00]), (0x04, [0x06, 0x00, 0x04, 0x00]), (0x05, [0x06, 0x05, 0x00, 0x20]),
   (0x06, [0x06, 0x05, 0x04, 0x00]), (0x10, [0x00, 0x02, 0x04, 0x00]), (0x20, [0x00, 0x02, 0x04, 0x00])]

/-- V1 to V36: V8 alone emits Negative, V24 alone emits Positive. -/
theorem test_eval_vectors :
    evalVectors.all (fun row => ([0x4, 0x5, 0x6, 0x7].zip row.2).all fun cell =>
      after (.holds row.1) cell.1 == some (.holds cell.2, true,
        some (if row.1 = 0x01 ∧ cell.1 = 0x7 then .negative
              else if row.1 = 0x05 ∧ cell.1 = 0x7 then .positive else .none))) = true := by decide

/-- A table whose entry (0, 0) has direction bits 0x30 and whose row 7 is populated with the same
(95 2.5: "a model test that substitutes a table"). -/
def mistypedRom : Memory := [(0, 0x30), (28, 0x30)]

/-- F-1 to F-4 of 95 2.5, and BadFlags on the substituted table. -/
theorem test_eval_faults :
    exec (.eval true true) (withSt .undefined) = .fault (.noReset 3) ∧
    exec (.eval false false) (withSt (.holds 0x07)) = .fault (.badPhase 0x07 0) ∧
    exec (.eval true false) (withSt (.holds 0x1F)) = .fault (.badPhase 0x1F 1) ∧
    after (.holds 0x30) 0x4 = some (.holds 0x00, true, some .none) ∧
    evalOn mistypedRom false false (withSt (.holds 0x00)) = .fault (.badFlags 0x30 0) := by
  refine ⟨rfl, rfl, rfl, by decide, rfl⟩

/-- The step after `withFetchWord` runs the word's operation: V8 as a table word. -/
theorem test_fetch_word :
    step ((withSt (.holds 0x01)).withFetchWord 8 0x7) =
      .next { withSt (.holds 0x10) with edge := 1 } := rfl

/-- The ports of R57 after V8, and after I-2. -/
theorem test_ports :
    (withSt (.holds 0x10)).ports = ⟨true, 0b01, 0x10⟩ ∧
    { withSt (.holds 0x20) with evq := false }.ports = ⟨false, 0b00, 0x20⟩ := by decide

/-- The text of 30_encoding.md R59, comments and pseudo-instructions included, assembles to P7's digits with
a detent written out (95 Part 3, P7: `8 5 4 6 7`). -/
theorem test_parse_and_assemble :
    ((parseProgram (wordReset ++ [' ', ';', ' ', 'x', '\n'] ++ wordEval ++ [' ', '1', ',', ' ', '0', '\n'] ++
        wordEval ++ [' ', '#', '0', '\n', '\n'] ++ wordEval ++ [' ', '0', ',', '1', '\n'] ++
        wordEval ++ [' ', '#', '3'])).bind assemble).map digitsText =
      some ['8', ' ', '5', ' ', '4', ' ', '6', ' ', '7', ' '] ∧
    ((parseProgram (wordReset ++ ['\n'] ++ wordDetentNeg)).bind assemble).map digitsText =
      some ['8', ' ', '5', ' ', '4', ' ', '6', ' ', '7', ' '] ∧
    (parseProgram (wordIdle ++ [' ', '1', '2'])) = some [.idles 12] ∧
    parseProgram (wordEval ++ [' ', '1']) = none := by decide

/-! ### The hypotheses of the statements can be met -/

/-- An operation that completes, for each constructor. -/
theorem test_witness_completes :
    exec .reset (withSt .undefined) = .next { withSt (.holds 0x00) with evq := false } ∧
    exec (.eval true true) (withSt (.holds 0x05)) = .next (withSt (.holds 0x20)) ∧
    exec .idle (withSt (.holds 0x06)) = .next { withSt (.holds 0x06) with evq := false } :=
  ⟨rfl, rfl, rfl⟩

theorem test_witness_ResetClearsEveryState :
    (0x8#4).getLsbD 3 = true ∧ (0xF#4).getLsbD 3 = true := by decide

theorem test_witness_EvalLoadsTheTableEntry :
    (withSt .undefined).st = .undefined ∧ (withSt (.holds 0x07)).st = .holds 0x07 ∧
    6 < ((0x07 : Byte) &&& 0x0F).toNat ∧ 6 < ((0xFF : Byte) &&& 0x0F).toNat ∧
    ((0x00 : Byte) &&& 0x0F).toNat ≤ 6 ∧ ((0xF6 : Byte) &&& 0x0F).toNat ≤ 6 ∧
    phaseOf 0x00 ≤ 6 ∧ tableRead mistypedRom (phaseOf 0x00) (codeOf false false) = some 0x30 ∧
    (0x30 : Byte) &&& 0x30 = 0x30 := by decide

theorem test_witness_IdleChangesOnlyTheEventBit :
    (0x3#4).extractLsb' 2 2 = 0 ∧ ∀ w ∈ [0x0#4, 0x3#4], decodeVector w = .idle := by decide

theorem test_witness_StepPerformsTheDecodedOperation :
    { withSt (.holds 0x01) with evq := false, edge := 9, unit := 1 }.st = (withSt (.holds 0x01)).st ∧
    step ((withSt (.holds 0x01)).present 0x7) = .next { withSt (.holds 0x10) with edge := 1 } ∧
    step ((withSt .undefined).present 0x7) = .fault (.noReset 3) := ⟨rfl, rfl, rfl⟩

theorem test_witness_VectorSelectsOneOperation :
    (0x8#4).getLsbD 3 = true ∧ (0x7#4).getLsbD 3 = false ∧ (0x7#4).getLsbD 2 = true ∧
    (0x3#4).getLsbD 3 = false ∧ (0x3#4).getLsbD 2 = false := by decide

theorem test_witness_InputVectorIsSampledWhole :
    (PortDrive.mk false true .high .low).levelB = .high ∧
    (PortDrive.mk false true .high .low).levelA = .low ∧
    (PortDrive.mk false true .low .high).levelB = .low ∧
    (PortDrive.mk false true .low .high).levelA = .high := by decide

theorem test_witness_VectorDigitsAreUpperCase : 'a' ∉ hexDigits ∧ ' ' ∉ hexDigits := by decide

theorem test_witness_AssembledProgramsDecodeAsWritten :
    decodeProgram [0x08, 0x07] = .ok [.reset, .eval true true] ∧
    assemble [.reset, .evalLevels 1 0, .evalCode 3, .idles 2] = some [0x8, 0x5, 0x7, 0x0, 0x0] :=
  ⟨rfl, by decide⟩

theorem test_witness_AssemblerStatementsAssemble :
    (1 < 2) ∧ (3 < 4) ∧ (2 ≤ 2 ∨ 2 ≤ 0) ∧ (4 ≤ 4) ∧ ';' ∉ ['I', 'D', 'L', 'E'] ∧
    parseLine (['E', 'V', 'A', 'L', ' '] ++ Nat.toDigits 10 1 ++ [',', ' '] ++ Nat.toDigits 10 0) =
      some (some (.evalLevels 1 0)) := by decide

theorem test_witness_TableIsLinearlyAddressed :
    (6 : BitVec 3) ≠ 7 ∧ (28 : BitVec 5) ≤ 28 ∧ (28 : BitVec 5) ≤ 31 := by decide

theorem test_witness_TableHasNoOtherCells : 28 ≤ 28 ∧ 28 ≤ 32 := by decide

theorem test_witness_UnpopulatedRowsRaiseBadPhase :
    (6 : BitVec 4) < 7 ∧ (6 : BitVec 4) < 15 ∧ (RunRecord.start (withSt (.holds 0x1F))).fault = none ∧
    (RunRecord.start (withSt (.holds 0x1F))).state.st = .holds 0x1F ∧
    6 < ((0x1F : Byte) &&& 0x0F).toNat ∧ codeEvaluated 0x5 = some 1 := by decide

theorem test_witness_DirectionBitsMapToEvents :
    tableRead transitionRom 5 3 = some 0x20 ∧
    evalOn transitionRom true true (withSt (.holds 0x05)) = .next (withSt (.holds 0x20)) ∧
    phaseOf 0x10 ≤ 6 ∧ tableRead mistypedRom (phaseOf 0x10) (codeOf false false) = some 0x30 :=
  ⟨by decide, rfl, by decide, by decide⟩

theorem test_witness_NamedCellsAreTheTable :
    enteringCode .negFinal = some 2 ∧ (namedCell .negNext 2).next = .negFinal ∧
    Phase.negFinal ≠ .start ∧ (6 : BitVec 4) < 7 ∧
    (namedCell .negNext 2).cls = .advance ∧ (namedCell .posBegin 3).cls = .retreat ∧
    (namedCell .posFinal 3).cls = .complete ∧ (namedCell .start 0).cls = .stay ∧
    (namedCell .start 2).cls = .advance := by decide

theorem test_witness_PathsMirrorAndNeverMix :
    Phase.posNext ≠ .start ∧ (namedCell .posNext 1).next ≠ .start ∧
    (namedCell .negFinal 3).event ≠ .none := by decide

theorem test_witness_EveryStepKeepsReadyStates :
    State.reset.ready = true ∧ (withSt (.holds 0x20)).ready = true ∧ (State.powerOn 0).lawful = true ∧
    step ((State.powerOn 0).present 0x8) = .next { State.reset with edge := 1 } ∧
    step ((State.powerOn 0).present 0x7) = .fault (.noReset 3) :=
  ⟨by decide, by decide, rfl, rfl, rfl⟩

theorem test_witness_UndefinedUntilTheFirstReset :
    (State.powerOn 0).st = .undefined ∧ (∀ w ∈ [0x0#4, 0x2#4], decodeVector w = .idle) ∧
    codeEvaluated 0x4 = some 0 ∧ rstBit 0xC = true := ⟨rfl, by decide, by decide, by decide⟩

theorem test_witness_ModelFaultsExactly :
    (RunRecord.start (withSt (.holds 0x07))).fault = none ∧
    ((RunRecord.start (withSt (.holds 0x07))).advance 0x4).fault = some (.badPhase 0x07 0) := by decide

theorem test_witness_ModelFaultsInOrder :
    (withSt (.holds 0x07)).st = .holds 0x07 ∧ 6 < phaseOf 0x07 ∧
    tableRead mistypedRom (phaseOf 0x07) (codeOf false false) = some 0x30 ∧
    evalOn mistypedRom false false (withSt (.holds 0x40)) = .fault (.badFlags 0x30 0) :=
  ⟨rfl, by decide, by decide, rfl⟩

theorem test_witness_RecordedFaultIsFinal :
    (run (State.powerOn 0) [0x0, 0x6]).fault = some (.noReset 2) := by decide

theorem test_witness_CleanRunsNeverFault : cleanEntry [0x8, 0x7] = true := by decide
theorem test_witness_ResetHidesThePast : cleanEntry [0xF] = true := by decide

theorem test_witness_ResetDiscardsThePartialPath :
    rstBit 0x8 = true ∧ SafeRun State.reset [0x5, 0x4] := ⟨by decide, by unfold SafeRun; decide⟩

theorem test_witness_HeldResetIsOneReset :
    [0x8#4, 0x9#4] ≠ [] ∧ (∀ v ∈ [0x8#4, 0x9#4], rstBit v = true) ∧
    (∀ v ∈ [0x0#4], decodeVector v = .idle) := by decide

theorem test_witness_StrayBitsOfTheStateAreIgnored :
    (withSt (.holds 0x46)).st = .holds 0x46 ∧ phaseOf 0x46 ≤ 6 ∧ (withSt (.holds 0xC7)).st = .holds 0xC7 ∧
    6 < phaseOf 0xC7 := by decide

theorem test_witness_EveryEvalEmitsOneEvent : SafeRun State.reset [0x7, 0x0, 0x5] := by
  unfold SafeRun; decide

theorem test_witness_OutputPortsOfTheRegisters :
    (withSt (.holds 0x20)).st = .holds 0x20 ∧ (withSt (.holds 0x20)).ready = true := by decide

theorem test_witness_PortsShowTheEventOfTheStep :
    step ((withSt (.holds 0x01)).present 0x7) = .next { withSt (.holds 0x10) with edge := 1 } ∧
    (withSt (.holds 0x10)).st ≠ .undefined ∧ codeEvaluated 0x0 = none := ⟨rfl, by decide, by decide⟩

theorem test_witness_DirectionFieldIsTransient :
    (withSt (.holds 0x05)).st = .holds 0x05 ∧
    exec (.eval true true) (withSt (.holds 0x05)) = .next (withSt (.holds 0x20)) ∧
    (∀ v ∈ [0x1#4], decodeVector v = .idle) ∧
    exec .reset (withSt (.holds 0x20)) = .next { withSt (.holds 0x00) with evq := false } ∧
    phaseOf 0x20 = phaseOf 0x40 ∧ phaseOf 0x20 ≤ 6 ∧ evalCodes [0x0, 0x5] ≠ [] :=
  ⟨rfl, rfl, by decide, rfl, by decide, by decide, by decide⟩

theorem test_witness_TicksOnlyOnCompletion :
    (withSt (.holds 0x01)).st = .holds 0x01 ∧ phaseOf 0x01 = 1 ∧ phaseOf 0x35 = 5 ∧ phaseOf 0x35 ≤ 6 ∧
    codeOf true true = 3 := by decide

theorem test_witness_EvalFromStartBeginsAPath :
    (withSt (.holds 0x10)).st = .holds 0x10 ∧ phaseOf 0x10 = 0 := by decide

theorem test_witness_RepeatedLevelsEmitNone :
    codeEvaluated 0x7 = some 3 ∧ (∀ x ∈ [0x0#4], decodeVector x = .idle) ∧
    SafeRun (withSt (.holds 0x01)) [0x7, 0x0] := ⟨by decide, by decide, by unfold SafeRun; decide⟩

theorem test_witness_DuplicateEvalPhase :
    (withSt (.holds 0x04)).st = .holds 0x04 ∧ phaseOf 0x04 = 4 ∧ phaseOf 0x02 = 2 ∧ phaseOf 0x06 ≤ 6 := by
  decide

/-- X1, X3, X4 of 95 2.6 and a stay at START: the four clauses of the statement. -/
theorem test_witness_OppositeCodeEmitsNone :
    codeEvaluated 0x5 = some 1 ∧ codeEvaluated 0x6 = some 2 ∧ opposite 1 2 = true ∧
    SafeRun State.reset [0x5] ∧ (run State.reset [0x5]).state.st.phase? ≠ some 0 ∧
    (run State.reset [0x7]).state.st.phase? = some 0 ∧
    (run (withSt (.holds 0x01)) [0x5]).state.st.phase? = some 0 ∧
    (run (withSt (.holds 0x02)) [0x6]).state.st.phase? = some 0 :=
  ⟨by decide, by decide, by decide, by unfold SafeRun; decide, by decide, by decide, by decide, by decide⟩

/-- P7 of 95 Part 3 without its reset, and its mirror image. -/
theorem test_witness_TickNeedsAFullPath :
    State.reset.st.phase? = some 0 ∧
    (∀ n < 4, 0 < n → (run State.reset ([0x5, 0x4, 0x6].take n)).state.st.phase? ≠ some 0) ∧
    (run State.reset [0x5, 0x4, 0x6, 0x7]).events = (run State.reset [0x5, 0x4, 0x6]).events ++ [.negative] ∧
    (∀ n < 4, 0 < n → (run State.reset ([0x6, 0x4, 0x5].take n)).state.st.phase? ≠ some 0) ∧
    (run State.reset [0x6, 0x4, 0x5, 0x7]).events =
      (run State.reset [0x6, 0x4, 0x5]).events ++ [.positive] := by decide

/-- START, as for DetentsAreCountedOnce, TraversalNeverReportsTheOther and EveryPhaseIsReachable. -/
theorem test_witness_phase_start :
    State.reset.st.phase? = some 0 ∧ (withSt (.holds 0x20)).st.phase? = some 0 ∧
    State.reset.ready = true := by decide

theorem test_witness_BounceEmitsAtMostOneTick :
    (withSt (.holds 0x03)).st = .holds 0x03 ∧ phaseOf 0x03 ≤ 6 ∧ adjacent 2 3 = true ∧
    adjacent 3 1 = true := by decide

theorem test_witness_TickCountIsTheSerialSum : SafeRun State.reset [0x5, 0x4, 0x6] := by
  unfold SafeRun; decide

theorem test_witness_SimultaneousRequestsMerge :
    true ∈ [false, true, true] ∧ true ∉ [false] ∧
    step (State.reset.present 0x5) = .next { withSt (.holds 0x02) with edge := 1 } :=
  ⟨by decide, by decide, rfl⟩

theorem test_witness_DecodersAreIndependent :
    (Bank.reset 2).decoders[1]? = some (RunRecord.start { State.reset with unit := 1 }) := by decide

/-- Before its own RESET, decoder 1 of a bank draws its own free values (log 20). -/
theorem test_bank_powerOn :
    ((Bank.powerOn 2).decoders.map fun r => (r.state.evq, r.state.ports.evValid)) =
      [(Config.powerOnEvq 0, Config.unresetEvValid 0 0), (Config.powerOnEvq 1, Config.unresetEvValid 1 0)] :=
  rfl

theorem test_witness_PairMachineRefinesTheBlock :
    State.reset.st = .holds (PairState.toByte ⟨.start, .none⟩) ∧
    (withSt (.holds 0x20)).st = .holds (PairState.toByte ⟨.start, .positive⟩) := by decide

end Sys2Proof.Tests
end

section
/-!
PROOFS. The events of a run, counted (00_scope.md R12): which operations emit, how many events one more
vector and a whole run emit, and the tick count.
-/

namespace Sys2Proof.Machine

/-! ### The event of one operation -/

/-- The event depends on `st` alone, not on the clock edge. -/
@[simp] theorem emitted_edge (i : Instr) (s : State) (n : Nat) :
    emitted i { s with edge := n } = emitted i s := rfl

/-- An operation that completes emits an event exactly if it is an EVAL. -/
theorem emitted_isSome_iff_of_next {i : Instr} {s t : State} (h : exec i s = .next t) :
    (emitted i s).isSome = true ↔ ∃ a b, i = .eval a b := by
  obtain ⟨rfl, -⟩ | ⟨a, b, v, rfl, hst, hphase, -⟩ | ⟨rfl, -⟩ := exec_next_cases h
  · simp
  · simp [emitted_eval_holds hst hphase]
  · simp

/-! ### The codes evaluated -/

/-- A vector has a code exactly if it selects an EVAL. -/
theorem codeEvaluated_isSome_iff (v : InputVector) :
    (codeEvaluated v).isSome = true ↔ ∃ a b, decodeVector v = .eval a b := by
  unfold codeEvaluated
  cases decodeVector v <;> simp

theorem evalCodes_cons (v : InputVector) (vs : List InputVector) :
    evalCodes (v :: vs) = (codeEvaluated v).toList ++ evalCodes vs := by
  unfold evalCodes
  cases h : codeEvaluated v <;> simp [h]

/-- A completed operation emits as many events (none or one) as its vector has codes. -/
theorem emitted_length_of_next {v : InputVector} {s t : State}
    (h : exec (decodeVector v) s = .next t) :
    (emitted (decodeVector v) s).toList.length = (codeEvaluated v).toList.length := by
  have hsame : (emitted (decodeVector v) s).isSome = (codeEvaluated v).isSome :=
    Bool.eq_iff_iff.mpr ((emitted_isSome_iff_of_next h).trans (codeEvaluated_isSome_iff v).symm)
  simp [Option.length_toList, hsame]

/-! ### The events of a run with no fault -/

/-- A record with no fault after one more vector had none before it. -/
theorem RunRecord.fault_none_of_advance {r : RunRecord} {v : InputVector}
    (h : (r.advance v).fault = none) : r.fault = none := by
  cases hr : r.fault with
  | none => rfl
  | some f => rw [RunRecord.advance_of_fault hr, hr] at h; exact h

/-- A record with no fault after more vectors had none before them. -/
theorem RunRecord.fault_none_of_extend {r : RunRecord} {vs : List InputVector}
    (h : (r.extend vs).fault = none) : r.fault = none := by
  induction vs generalizing r with
  | nil => exact h
  | cons v vs ih => exact RunRecord.fault_none_of_advance (ih h)

/-- One more vector that raises no fault adds an event exactly if it has a code. -/
theorem RunRecord.events_length_advance {r : RunRecord} {v : InputVector}
    (h : (r.advance v).fault = none) :
    (r.advance v).events.length = r.events.length + (codeEvaluated v).toList.length := by
  have hr : r.fault = none := RunRecord.fault_none_of_advance h
  rw [RunRecord.advance_of_none hr] at h ⊢
  cases he : exec (decodeVector v) { r.state with edge := r.state.edge + 1 } with
  | next t =>
    have hlen := emitted_length_of_next he
    rw [emitted_edge] at hlen
    simp [hlen]
  | fault f => simp [he] at h
  | refused q => exact absurd he (exec_ne_refused _ _ q)

/-- More vectors that raise no fault add as many events as they have EVALs. -/
theorem RunRecord.events_length_extend {r : RunRecord} {vs : List InputVector}
    (h : (r.extend vs).fault = none) :
    (r.extend vs).events.length = r.events.length + (evalCodes vs).length := by
  induction vs generalizing r with
  | nil => rfl
  | cons v vs ih =>
    rw [RunRecord.extend_cons] at h ⊢
    rw [ih h, RunRecord.events_length_advance (RunRecord.fault_none_of_extend h), evalCodes_cons,
      List.length_append, Nat.add_assoc]

/-- A safe run emits as many events as it has EVALs. -/
theorem run_events_length {s : State} {vs : List InputVector} (h : SafeRun s vs) :
    (run s vs).events.length = (evalCodes vs).length :=
  (RunRecord.events_length_extend h).trans (Nat.zero_add _)

/-! ### The tick count -/

@[simp] theorem tickCount_nil : tickCount [] = 0 := rfl

@[simp] theorem tickCount_cons (e : DirectionEvent) (es : List DirectionEvent) :
    tickCount (e :: es) = tickOf e + tickCount es := rfl

/-- The tick count is the number of Positive events minus the number of Negative events. -/
theorem tickCount_eq_count_sub_count (es : List DirectionEvent) :
    tickCount es = (es.count .positive : Int) - (es.count .negative : Int) := by
  induction es with
  | nil => rfl
  | cons e es ih =>
    rw [tickCount_cons, ih]
    cases e <;> simp [tickOf] <;> omega

/-- Settles O35: EVAL is the one operation that emits when it completes, which counted along a run with no
fault gives one event per EVAL; the tick count is by induction on the events. -/
theorem everyEvalEmitsOneEvent : Obligations.EveryEvalEmitsOneEvent := by
  unfold Obligations.EveryEvalEmitsOneEvent
  refine ⟨fun i s t h => ?_, fun s vs h => run_events_length h, tickCount_eq_count_sub_count⟩
  rw [← Option.isSome_iff_exists]
  exact emitted_isSome_iff_of_next h

end Sys2Proof.Machine
end

section
/-!
PROOFS. The register `st` and its direction field (10_state.md R14, R16, R20, R29): what each operation
leaves in them, and that a lookup uses the phase alone.
-/

namespace Sys2Proof.Machine

/-! ### The direction field and the direction bits -/

/-- The direction bits of a byte are its field DIR in its place, with zeros around it. -/
theorem directionBits_eq_shiftLeft (e : Byte) : directionBits e = (dirField e).setWidth 8 <<< 4 := by
  ext i hi
  interval_cases i <;> simp [directionBits, dirMask, dirField]

/-- Without the bits 0x30, the field DIR is that of the event of the direction bits. -/
theorem dirField_eq_dirBitsOf {e : Byte} (h : directionBits e ≠ 0x30) :
    dirField e = dirBitsOf (directionOf (directionBits e)) := by
  rw [directionBits_eq_shiftLeft] at h ⊢
  generalize dirField e = d at h ⊢
  revert d; decide

/-- The field DIR of an entry, by its direction bits. -/
theorem dirField_entryOf (row : BitVec 4) (col : Code) :
    dirField (entryOf row col) = dirBitsOf (directionOf (directionBits (entryOf row col))) :=
  dirField_eq_dirBitsOf (entryOf_flags row col)

/-! ### EVAL -/

/-- An EVAL that completes read a populated row and wrote its entry. -/
theorem exec_eval_next {a b : Bool} {s t : State} (h : exec (.eval a b) s = .next t) :
    ∃ v, s.st = .holds v ∧ phaseOf v ≤ 6 ∧ t = s.write (entryOf (phaseOf v) (codeOf a b)) true := by
  obtain ⟨⟨⟩, -⟩ | ⟨_, _, v, ⟨⟩, hst, hphase, ht⟩ | ⟨⟨⟩, -⟩ := exec_next_cases h
  exact ⟨v, hst, hphase, ht⟩

/-- EVAL of an undefined `st` raises NoReset. -/
theorem exec_eval_undefined {s : State} (h : s.st = .undefined) (a b : Bool) :
    exec (.eval a b) s = .fault (.noReset (codeOf a b)) :=
  exec_eval_error (h ▸ evaluate_undefined transitionRom a b)

/-! ### What is shown, by operation -/

@[simp] theorem Shown.apply_idle (x : Shown) : x.apply .idle = x := by
  rcases x with ⟨st, es, _ | f⟩ <;> rfl

theorem Shown.apply_reset (st : EncoderState) (es : List DirectionEvent) :
    Shown.apply ⟨st, es, none⟩ .reset = ⟨.holds 0x00, es, none⟩ := rfl

/-- EVAL from a phase with a row, on what is shown: the old `st` enters by its phase only. -/
theorem Shown.apply_eval_holds {v : Byte} (h : phaseOf v ≤ 6) (es : List DirectionEvent) (a b : Bool) :
    Shown.apply ⟨.holds v, es, none⟩ (.eval a b) =
      ⟨.holds (entryOf (phaseOf v) (codeOf a b)),
        es ++ [directionOf (directionBits (entryOf (phaseOf v) (codeOf a b)))], none⟩ := by
  simp [Shown.apply, evaluate_holds h]

/-- IDLEs leave what is shown as it is. -/
theorem Shown.foldl_apply_idles {idles : List InputVector} (h : ∀ v ∈ idles, decodeVector v = .idle)
    (x : Shown) : (idles.map decodeVector).foldl Shown.apply x = x := by
  induction idles with
  | nil => rfl
  | cons v vs ih =>
    obtain ⟨hv, hvs⟩ := List.forall_mem_cons.mp h
    simp [hv, ih hvs]

/-- A run of IDLEs leaves `st` as it is. -/
theorem run_idles_st {idles : List InputVector} (h : ∀ v ∈ idles, decodeVector v = .idle) (s : State) :
    (run s idles).state.st = s.st :=
  congrArg Shown.st ((run_shown s idles).trans (Shown.foldl_apply_idles h _))

/-! ### The direction field is no input of the lookup -/

/-- IDLE evaluates no code. -/
theorem codeEvaluated_of_idle {v : InputVector} (h : decodeVector v = .idle) : codeEvaluated v = none := by
  simp [codeEvaluated, h]

/-- From two values of `st` with one phase, vectors with an EVAL among them show the same: the first
RESET or EVAL makes the two equal. -/
theorem Shown.foldl_apply_eq_of_phaseOf_eq {v w : Byte} (hvw : phaseOf v = phaseOf w)
    (hv : phaseOf v ≤ 6) (es : List DirectionEvent) {vs : List InputVector} (hvs : evalCodes vs ≠ []) :
    (vs.map decodeVector).foldl Shown.apply ⟨.holds v, es, none⟩ =
      (vs.map decodeVector).foldl Shown.apply ⟨.holds w, es, none⟩ := by
  induction vs with
  | nil => exact absurd rfl hvs
  | cons x xs ih =>
    rw [List.map_cons, List.foldl_cons, List.foldl_cons]
    cases hx : decodeVector x with
    | reset => rw [Shown.apply_reset, Shown.apply_reset]
    | eval a b => rw [Shown.apply_eval_holds hv, Shown.apply_eval_holds (hvw ▸ hv), hvw]
    | idle =>
      rw [Shown.apply_idle, Shown.apply_idle]
      exact ih (by simpa [evalCodes_cons, codeEvaluated_of_idle hx] using hvs)

/-- From two values of `st` with one phase, every run with an EVAL in it is observed the same. -/
theorem observe_eq_of_phaseOf_eq {v w : Byte} (hvw : phaseOf v = phaseOf w) (hv : phaseOf v ≤ 6)
    (s : State) {vs : List InputVector} (hvs : evalCodes vs ≠ []) :
    observe { s with st := .holds v } vs = observe { s with st := .holds w } vs := by
  apply RunRecord.observation_of_shown
  rw [run_shown, run_shown]
  exact Shown.foldl_apply_eq_of_phaseOf_eq hvw hv [] hvs

/-! ### The obligations of 10_state.md -/

/-- Settles O38: EVAL writes a table entry, whose field DIR is that of its direction bits; IDLEs change
nothing shown; RESET writes 0x00; and up to the first RESET or EVAL only the phase matters. -/
theorem directionFieldIsTransient : Obligations.DirectionFieldIsTransient := by
  unfold Obligations.DirectionFieldIsTransient
  refine ⟨fun a b s t v hst h => ?_, fun s idles h => run_idles_st h s, fun s t h => ?_,
    fun s v w vs hvw hv hvs => observe_eq_of_phaseOf_eq hvw hv s hvs⟩
  · obtain ⟨u, hu, hphase, rfl⟩ := exec_eval_next h
    obtain rfl : u = v := EncoderState.holds.inj (hu.symm.trans hst)
    refine ⟨_, tableRead_populated _ hphase _, rfl, ?_⟩
    rw [dirField_entryOf]
    unfold directionBits dirMask directionOf dirNeg dirPos
    refine ⟨fun hneg => ?_, fun hpos => ?_, fun hneg hpos => ?_⟩
    · rw [if_pos hneg]; rfl
    · rw [hpos]; rfl
    · rw [if_neg hneg, if_neg hpos]; rfl
  · cases h
    exact ⟨0x00, rfl, rfl⟩

/-- Settles O23: the values are those of the model's states at reset and at power-on, and an undefined `st`
stops EVAL at its first test. -/
theorem resetValuesOfTheRegisters : Obligations.ResetValuesOfTheRegisters := by
  unfold Obligations.ResetValuesOfTheRegisters
  exact ⟨rfl, rfl, rfl, rfl, fun _ => rfl, fun s a b h => exec_eval_undefined h a b⟩

end Sys2Proof.Machine
end

section
/-!
PROOFS. The memory of the block (20_memory.md): the linear addresses of the table (R34), the rows with no
entry (R35), and several decoders with no mutable state in common (R46).
-/

namespace Sys2Proof.Machine

/-! ### Several decoders -/

@[simp] theorem Bank.extend_nil (b : Bank) : b.extend [] = b := rfl
@[simp] theorem Bank.extend_cons (b : Bank) (e : Nat × InputVector) (es : List (Nat × InputVector)) :
    b.extend (e :: es) = (b.advance e).extend es := rfl

@[simp] theorem vectorsFor_nil (k : Nat) : vectorsFor k [] = [] := rfl

theorem vectorsFor_cons_self (e : Nat × InputVector) (es : List (Nat × InputVector)) :
    vectorsFor e.1 (e :: es) = e.2 :: vectorsFor e.1 es := by
  simp [vectorsFor]

theorem vectorsFor_cons_other {e : Nat × InputVector} {k : Nat} (h : e.1 ≠ k)
    (es : List (Nat × InputVector)) : vectorsFor k (e :: es) = vectorsFor k es := by
  simp [vectorsFor, h]

/-- The record of a decoder after an interleaving is the one its own vectors give it alone. -/
theorem Bank.extend_decoder {b : Bank} {k : Nat} {r : RunRecord} (h : b.decoders[k]? = some r)
    (es : List (Nat × InputVector)) :
    (b.extend es).decoders[k]? = some (r.extend (vectorsFor k es)) := by
  induction es generalizing b r with
  | nil => simpa using h
  | cons e es ih =>
    rw [Bank.extend_cons]
    by_cases hk : e.1 = k
    · subst hk
      have hself : (b.advance e).decoders[e.1]? = some (r.advance e.2) := by
        rw [Bank.advance_self, h, Option.map_some]
      rw [vectorsFor_cons_self, RunRecord.extend_cons]
      exact ih hself
    · rw [vectorsFor_cons_other hk]
      exact ih ((Bank.advance_other b hk).trans h)

/-- Settles O52: by induction on the interleaving, each step being the decoder's own or leaving it as it
was. -/
theorem decodersAreIndependent : Obligations.DecodersAreIndependent := by
  unfold Obligations.DecodersAreIndependent
  exact fun b es k r h => Bank.extend_decoder h es

/-! ### Linear addresses -/

/-- Row and column, put together, are the linear address. -/
theorem append_toNat_eq_linearAddress (row : BitVec 3) (col : Code) :
    (row ++ col).toNat = 4 * row.toNat + col.toNat := by
  rw [BitVec.toNat_append, ← Nat.shiftLeft_add_eq_or_of_lt col.isLt, Nat.shiftLeft_eq]
  omega

/-- A read at row and column put together is the read of that row and column. -/
theorem memRead_append (rom : Memory) (row : BitVec 3) (col : Code) :
    memRead rom (row ++ col) = tableRead rom (row.setWidth 4) col := by
  rw [memRead, BitVec.extractLsb'_append_eq_left, BitVec.extractLsb'_append_eq_right]

/-- Addresses from 28 on lie in row 7. -/
theorem row_of_28_le {addr : BitVec 5} (h : 28 ≤ addr) : addr.extractLsb' 2 3 = 7 := by
  revert addr; decide

/-- Settles O17: an address is its row and column put together, rows 0 to 6 are populated, and row 7, where
addresses 28 to 31 lie, is not. -/
theorem tableIsLinearlyAddressed : Obligations.TableIsLinearlyAddressed := by
  unfold Obligations.TableIsLinearlyAddressed
  refine ⟨append_toNat_eq_linearAddress, memRead_append transitionRom, fun row col hrow => ?_,
    fun addr h => ?_⟩
  · have hle : row.setWidth 4 ≤ 6 := by revert row; decide
    exact ⟨_, (memRead_append transitionRom row col).trans (tableRead_populated _ hle col)⟩
  · rw [memRead, row_of_28_le h]
    exact tableRead_unpopulated _ (by decide) _

/-! ### Rows with no entry -/

/-- The phase is the value `st & 0x0F`. -/
theorem phaseOf_toNat (v : Byte) : (phaseOf v).toNat = (v &&& 0x0F).toNat := by
  have hle : (v &&& 0x0F).toNat ≤ 0x0F := by
    rw [BitVec.toNat_and]; exact Nat.and_le_right
  rw [phaseOf, phaseMask, BitVec.toNat_setWidth]
  omega

/-- EVAL from a phase with no row raises BadPhase. -/
theorem exec_eval_badPhase {s : State} {v : Byte} (hst : s.st = .holds v) (h : 6 < phaseOf v)
    (a b : Bool) : exec (.eval a b) s = .fault (.badPhase v (codeOf a b)) :=
  exec_eval_error (hst ▸ evaluate_badPhase h transitionRom a b)

/-- A vector with a code selects the EVAL of that code. -/
theorem decodeVector_of_codeEvaluated {w : InputVector} {c : Code} (h : codeEvaluated w = some c) :
    ∃ a b, decodeVector w = .eval a b ∧ codeOf a b = c := by
  unfold codeEvaluated at h
  cases hw : decodeVector w with
  | eval a b => exact ⟨a, b, rfl, by simpa [hw] using h⟩
  | reset => simp [hw] at h
  | idle => simp [hw] at h

/-- A vector with a code, from a phase with no row, adds to the record the fault BadPhase and nothing else. -/
theorem RunRecord.advance_badPhase {r : RunRecord} {v : Byte} {w : InputVector} {c : Code}
    (hfault : r.fault = none) (hst : r.state.st = .holds v) (hphase : 6 < phaseOf v)
    (hw : codeEvaluated w = some c) : r.advance w = { r with fault := some (.badPhase v c) } := by
  obtain ⟨a, b, hdecode, rfl⟩ := decodeVector_of_codeEvaluated hw
  rw [RunRecord.advance_of_none hfault, hdecode,
    exec_eval_badPhase (s := { r.state with edge := r.state.edge + 1 }) hst hphase, RunRecord.record_fault]

/-- Settles O18: EVAL tests the phase before its lookup, and a fault is all that such a step adds to the
record. -/
theorem unpopulatedRowsRaiseBadPhase : Obligations.UnpopulatedRowsRaiseBadPhase := by
  unfold Obligations.UnpopulatedRowsRaiseBadPhase
  have hbad {v : Byte} (h : 6 < (v &&& 0x0F).toNat) : 6 < phaseOf v :=
    BitVec.lt_def.mpr (by rwa [phaseOf_toNat])
  exact ⟨fun row col h => tableRead_unpopulated row h col,
    fun a b s v hst h => exec_eval_badPhase hst (hbad h) a b,
    fun r v w c hfault hst h hw => RunRecord.advance_badPhase hfault hst (hbad h) hw⟩

end Sys2Proof.Machine
end

section
/-!
PROOFS. The encoding of the input vector (30_encoding.md): the sampled bits (R47), the operation and the code
they select (R48, R50), the canonical vectors and their digits (R49), and the direction bits of a table entry
with the event they stand for (R54; 42_direction_extract.md R88, R89).
-/

namespace Sys2Proof

/-! ### The operation a vector selects -/

/-- `in[3]` selects RESET, whatever the other bits. -/
theorem decodeVector_of_rst {v : InputVector} (hrst : rstBit v = true) : decodeVector v = .reset :=
  if_pos hrst

/-- `in[2]` selects EVAL of the two levels where `in[3]` does not ask for RESET. -/
theorem decodeVector_of_eval {v : InputVector} (hrst : rstBit v = false) (heval : evalBit v = true) :
    decodeVector v = .eval (levelABit v) (levelBBit v) := by
  simp [decodeVector, hrst, heval]

/-- With neither request the vector is IDLE. -/
theorem decodeVector_of_idle {v : InputVector} (hrst : rstBit v = false) (heval : evalBit v = false) :
    decodeVector v = .idle := by
  simp [decodeVector, hrst, heval]

/-- Every vector with `in[3] = 1` has RESET's canonical vector. -/
theorem canonicalVector_of_rst {v : InputVector} (hrst : rstBit v = true) : canonicalVector v = 0x8 :=
  congrArg encode (decodeVector_of_rst hrst)

/-- Every vector with `in[3:2] = 0` has IDLE's canonical vector. -/
theorem canonicalVector_of_idle {v : InputVector} (hrst : rstBit v = false) (heval : evalBit v = false) :
    canonicalVector v = 0x0 :=
  congrArg encode (decodeVector_of_idle hrst heval)

namespace Machine

/-! ### The code of two levels -/

theorem codeOf_getLsbD_zero (a b : Bool) : (codeOf a b).getLsbD 0 = a := by
  cases a <;> cases b <;> rfl
theorem codeOf_getLsbD_one (a b : Bool) : (codeOf a b).getLsbD 1 = b := by
  cases a <;> cases b <;> rfl

/-- The code of a vector's levels is its two low bits. -/
theorem codeOf_levelBits (v : InputVector) : codeOf (levelABit v) (levelBBit v) = v.extractLsb' 0 2 := by
  simpa [levelABit, levelBBit] using codeOf_levels (v.extractLsb' 0 2)

/-- The code a vector evaluates is its two low bits, where it selects EVAL. -/
theorem codeEvaluated_of_eval {v : InputVector} (hrst : rstBit v = false) (heval : evalBit v = true) :
    codeEvaluated v = some (v.extractLsb' 0 2) := by
  simp [codeEvaluated, decodeVector_of_eval hrst heval, codeOf_levelBits]

/-- The canonical vector of `EVAL #c` is `0x4 + c`. -/
theorem encode_evalOfCode (c : Code) : encode (evalOfCode c) = 0x4 + c.setWidth 4 := by
  revert c; decide

/-- Settles O7: the decoder tests `in[3]`, then `in[2]`, and the code is made of the two low bits. -/
theorem vectorSelectsOneOperation : Obligations.VectorSelectsOneOperation := by
  unfold Obligations.VectorSelectsOneOperation
  exact fun v => ⟨decodeVector_of_rst,
    fun hrst heval => ⟨decodeVector_of_eval hrst heval, codeEvaluated_of_eval hrst heval⟩,
    decodeVector_of_idle⟩

/-- Settles O10: the formula is the model's own, and it puts each level in its bit. -/
theorem codeIsTheTwoLevels : Obligations.CodeIsTheTwoLevels := by
  unfold Obligations.CodeIsTheTwoLevels
  exact ⟨fun _ _ => rfl, fun a b => ⟨codeOf_getLsbD_one a b, codeOf_getLsbD_zero a b⟩, codeOf_levelBits⟩

/-! ### The digits of a program -/

/-- The digit of a vector is the one at the place of its value. -/
theorem hexDigits_getElem? (v : InputVector) : hexDigits[v.toNat]? = some (hexDigit v) := by
  have hlt : v.toNat < hexDigits.length := v.isLt
  rw [hexDigit, List.getD_eq_getElem?_getD, List.getElem?_eq_getElem hlt, Option.getD_some]

/-- No digit is a space. -/
theorem hexDigit_ne_space (v : InputVector) : hexDigit v ≠ ' ' := by
  have hmem : hexDigit v ∈ hexDigits := List.mem_of_getElem? (hexDigits_getElem? v)
  have hspace : ' ' ∉ hexDigits := by decide
  exact ne_of_mem_of_not_mem hmem hspace

/-- Without its spaces, the text of a program is one digit per vector, in order. -/
theorem digitsText_filter_ne_space (vs : List InputVector) :
    (digitsText vs).filter (· ≠ ' ') = vs.map hexDigit := by
  induction vs with
  | nil => rfl
  | cons v vs ih => simpa [digitsText, hexDigit_ne_space v] using ih

/-- Settles O9: the canonical vector depends on the operation selected alone; the text of a program is by
induction on its vectors. -/
theorem canonicalVectorsOfTheOperations : Obligations.CanonicalVectorsOfTheOperations := by
  unfold Obligations.CanonicalVectorsOfTheOperations
  refine ⟨rfl, rfl, encode_evalOfCode, fun v => canonicalVector_of_rst, fun v hv => ?_,
    digitsText_filter_ne_space, hexDigits_getElem?, by decide⟩
  have hrequests : ∀ w ∈ [0x1#4, 0x2#4, 0x3#4], rstBit w = false ∧ evalBit w = false := by decide
  obtain ⟨hrst, heval⟩ := hrequests v hv
  exact canonicalVector_of_idle hrst heval

/-! ### The sampled ports -/

@[simp] theorem LineLevel.sample_low (u n : Nat) (l : LineName) : LineLevel.low.sample u n l = false := rfl
@[simp] theorem LineLevel.sample_high (u n : Nat) (l : LineName) : LineLevel.high.sample u n l = true := rfl

@[simp] theorem PortDrive.rstBit_sample (u n : Nat) (d : PortDrive) : rstBit (d.sample u n) = d.rst :=
  rstBit_inputVector ..
@[simp] theorem PortDrive.evalBit_sample (u n : Nat) (d : PortDrive) : evalBit (d.sample u n) = d.eval :=
  evalBit_inputVector ..
@[simp] theorem PortDrive.levelBBit_sample (u n : Nat) (d : PortDrive) :
    levelBBit (d.sample u n) = d.levelB.sample u n .lineB := levelBBit_inputVector ..
@[simp] theorem PortDrive.levelABit_sample (u n : Nat) (d : PortDrive) :
    levelABit (d.sample u n) = d.levelA.sample u n .lineA := levelABit_inputVector ..

/-- Settles O12: a presented drive is what is sampled, and each bit of the sample is that of its port. -/
theorem inputVectorIsSampledWhole : Obligations.InputVectorIsSampledWhole := by
  unfold Obligations.InputVectorIsSampledWhole
  refine ⟨State.sampled_present, fun s d => ?_⟩
  rw [State.sampled_presentDrive]
  have hB := d.levelBBit_sample s.unit s.edge
  have hA := d.levelABit_sample s.unit s.edge
  refine ⟨d.rstBit_sample s.unit s.edge, d.evalBit_sample s.unit s.edge,
    fun h => ?_, fun h => ?_, fun h => ?_, fun h => ?_⟩
  · rwa [h, LineLevel.sample_high] at hB
  · rwa [h, LineLevel.sample_low] at hB
  · rwa [h, LineLevel.sample_high] at hA
  · rwa [h, LineLevel.sample_low] at hA

/-! ### The direction bits of an evaluation -/

/-- The direction bits of an entry are those of Negative, of Positive or of None. -/
theorem directionBits_entryOf_mem :
    ∀ row : BitVec 4, ∀ col : Code, directionBits (entryOf row col) ∈ [0x00#8, 0x10#8, 0x20#8] := by decide

/-- A value read from the block's table is the entry of its row. -/
theorem entryOf_eq_of_tableRead {row : BitVec 4} {col : Code} {e : Byte}
    (h : tableRead transitionRom row col = some e) : entryOf row col = e := by
  rw [entryOf, h, Option.getD_some]

/-- On any table, an evaluation that completes found an entry whose direction bits are not 0x30. -/
theorem evaluate_ok_tableRead {rom : Memory} {st : EncoderState} {a b : Bool} {r : Evaluation}
    (h : evaluate rom st a b = .ok r) :
    ∃ v, st = .holds v ∧ tableRead rom (phaseOf v) (codeOf a b) = some r.next ∧
      directionBits r.next ≠ 0x30 := by
  cases st with
  | undefined => simp [evaluate_undefined] at h
  | holds v =>
    simp only [evaluate] at h
    split at h
    · cases h
    split at h
    · cases h
    next entry hread =>
    split at h
    · cases h
    next hbits =>
    cases h
    exact ⟨v, rfl, hread, hbits⟩

/-- On any table, a phase with a row whose entry has direction bits 0x30 raises BadFlags. -/
theorem evaluate_badFlags {rom : Memory} {v next : Byte} {a b : Bool} (hphase : phaseOf v ≤ 6)
    (hread : tableRead rom (phaseOf v) (codeOf a b) = some next) (hbits : directionBits next = 0x30) :
    evaluate rom (.holds v) a b = .error (.badFlags next (codeOf a b)) := by
  have hrow : ¬ phaseOf v > 6 := BitVec.not_lt.mpr hphase
  simp only [evaluate, if_neg hrow, hread, if_pos hbits]

/-- An EVAL that completes, on any table, is an evaluation that completes, and writes the entry it found. -/
theorem evalOn_next {rom : Memory} {a b : Bool} {s t : State} (h : evalOn rom a b s = .next t) :
    ∃ r, evaluate rom s.st a b = .ok r ∧ t = s.write r.next true := by
  unfold evalOn at h
  cases hr : evaluate rom s.st a b with
  | error f => simp [hr, raiseFault] at h
  | ok r =>
    simp only [hr, Host.Outcome.next.injEq] at h
    exact ⟨r, rfl, h.symm⟩

/-- EVAL on any table raises the fault of its evaluation. -/
theorem evalOn_fault {rom : Memory} {a b : Bool} {s : State} {f : Fault}
    (h : evaluate rom s.st a b = .error f) : evalOn rom a b s = .fault f := by
  simp [evalOn, h, raiseFault]

/-- After a step that wrote `v` with an event, `ev_dir` shows the field DIR of `v`. -/
@[simp] theorem State.ports_write_true_evDir (s : State) (v : Byte) :
    (s.write v true).ports.evDir = dirField v := rfl

/-- Settles O19: the direction bits are a mask; the evaluation tests them before its writes, on any table;
and on the block's table the event emitted and `ev_dir` are both read from the entry written. -/
theorem directionBitsMapToEvents : Obligations.DirectionBitsMapToEvents := by
  unfold Obligations.DirectionBitsMapToEvents
  refine ⟨fun _ => rfl, rfl, rfl, rfl, fun row col e h => ?_, fun rom a b s t h => ?_,
    fun rom a b s v next hst hphase hread hbits => ?_, fun a b s t h => ?_⟩
  · rw [← entryOf_eq_of_tableRead h]
    exact directionBits_entryOf_mem row col
  · obtain ⟨r, hr, rfl⟩ := evalOn_next h
    obtain ⟨v, hst, hread, hbits⟩ := evaluate_ok_tableRead hr
    exact ⟨v, r.next, hst, hread, rfl, rfl, hbits⟩
  · exact evalOn_fault (hst ▸ evaluate_badFlags hphase hread hbits)
  · obtain ⟨v, hst, hphase, rfl⟩ := exec_eval_next h
    exact ⟨_, rfl, emitted_eval_holds hst hphase a b,
      (State.ports_write_true_evDir ..).trans (dirField_entryOf _ _)⟩

end Machine

end Sys2Proof
end

section
/-!
PROOFS. The three operations (40_fsm_operations.md R62, R65 to R69): what a step on a vector does, when an
operation faults, on what its result depends, and what IDLEs and a repeated EVAL do in a run.
-/

namespace Sys2Proof.Machine

/-! ### Steps and faults -/

/-- A step on a vector with `in[3] = 1` is RESET, one edge later. -/
theorem step_present_of_rst (s : State) {v : InputVector} (h : rstBit v = true) :
    step (s.present v) = .next { s with st := .holds 0x00, evq := false, edge := s.edge + 1 } := by
  rw [step_present, decodeVector_of_rst h]
  rfl

/-- A step on a vector that selects IDLE clears `evq`, one edge later. -/
theorem step_present_of_idle (s : State) {v : InputVector} (h : decodeVector v = .idle) :
    step (s.present v) = .next { s with evq := false, edge := s.edge + 1 } := by
  rw [step_present, h]
  rfl

/-- A vector with `in[3:2] = 0` makes neither request. -/
theorem requests_of_extractLsb'_eq_zero {v : InputVector} (h : v.extractLsb' 2 2 = 0) :
    rstBit v = false ∧ evalBit v = false := by
  revert v; decide

/-- A state whose `st` is a value reachable from reset has a phase with a row. -/
theorem State.phaseOf_le_of_ready {s : State} (h : s.ready = true) :
    ∃ v, s.st = .holds v ∧ phaseOf v ≤ 6 := by
  unfold State.ready at h
  cases hst : s.st with
  | undefined => simp [hst] at h
  | holds v => exact ⟨v, rfl, phaseOf_reachable v (by simpa [hst] using h)⟩

/-- Only EVAL faults, with the fault of its evaluation. -/
theorem exec_fault_cases {i : Instr} {s : State} {f : Fault} (h : exec i s = .fault f) :
    ∃ a b, i = .eval a b ∧ evaluate transitionRom s.st a b = .error f := by
  cases i with
  | reset => simp at h
  | idle => simp at h
  | eval a b =>
    cases he : evaluate transitionRom s.st a b with
    | ok r => simp [exec_eval_ok he] at h
    | error g =>
      obtain rfl : g = f := by simpa [exec_eval_error he] using h
      exact ⟨a, b, rfl, he⟩

/-- No operation faults where `st` is a value reachable from reset. -/
theorem ready_eq_false_of_exec_fault {i : Instr} {s : State} {f : Fault} (h : exec i s = .fault f) :
    s.ready = false := by
  by_contra hready
  obtain ⟨v, hst, hphase⟩ := State.phaseOf_le_of_ready (Bool.eq_true_of_not_eq_false hready)
  obtain ⟨a, b, -, he⟩ := exec_fault_cases h
  simp [hst, evaluate_holds hphase] at he

/-! ### An operation depends on `st` alone -/

/-- The event of an operation depends on `st` alone. -/
theorem emitted_eq_of_st_eq {s t : State} (hst : s.st = t.st) (i : Instr) : emitted i s = emitted i t := by
  simp only [emitted, hst]

/-- An operation that completes does so from every state with the same `st`, with the same `st` and `evq`. -/
theorem exec_next_of_st_eq {i : Instr} {s s' t : State} (hst : s.st = t.st) (h : exec i s = .next s') :
    ∃ t', exec i t = .next t' ∧ t'.st = s'.st ∧ t'.evq = s'.evq := by
  obtain ⟨rfl, rfl⟩ | ⟨a, b, v, rfl, hv, hphase, rfl⟩ | ⟨rfl, rfl⟩ := exec_next_cases h
  · exact ⟨_, exec_reset t, rfl, rfl⟩
  · exact ⟨_, exec_eval_holds (hst.symm.trans hv) hphase a b, rfl, rfl⟩
  · exact ⟨_, exec_idle t, hst.symm, rfl⟩

/-- An operation that faults does so from every state with the same `st`, with the same fault. -/
theorem exec_fault_of_st_eq {i : Instr} {s t : State} {f : Fault} (hst : s.st = t.st)
    (h : exec i s = .fault f) : exec i t = .fault f := by
  obtain ⟨a, b, rfl, he⟩ := exec_fault_cases h
  exact exec_eval_error (hst ▸ he)

/-! ### EVAL and the literal table -/

/-- The entry of a populated row is the value the literal table has there. -/
theorem transitionRows_getElem?_eq_entryOf :
    ∀ row : BitVec 4, row ≤ 6 → ∀ col : Code,
      (transitionRows[row.toNat]?.bind fun r => r[col.toNat]?) = some (entryOf row col) := by decide

/-- EVAL's canonical vector is `0x4 + 2*b + a`. -/
theorem encode_eval (a b : Bool) :
    encode (.eval a b) = 0x4 + ((BitVec.ofBool b).setWidth 4 <<< 1) + (BitVec.ofBool a).setWidth 4 := by
  revert a b; decide

/-- EVAL's canonical vector selects that EVAL. -/
theorem decodeVector_encode_eval (a b : Bool) : decodeVector (encode (.eval a b)) = .eval a b :=
  decodeVector_inputVector false true b a

/-! ### IDLEs in a run, and a repeated EVAL -/

/-- IDLEs before other vectors change nothing observed of these. -/
theorem observe_idles_append {idles : List InputVector} (h : ∀ w ∈ idles, decodeVector w = .idle)
    (s : State) (vs : List InputVector) : observe s (idles ++ vs) = observe s vs := by
  apply RunRecord.observation_of_shown
  rw [run_shown, run_shown, List.map_append, List.foldl_append, Shown.foldl_apply_idles h]

/-- An EVAL as the only step, from an undefined `st`, is observed as NoReset. -/
theorem observe_eval_undefined {s : State} {v : InputVector} {c : Code} (hst : s.st = .undefined)
    (hv : codeEvaluated v = some c) : observe s [v] = .stopped (.noReset c) := by
  obtain ⟨a, b, hdecode, rfl⟩ := decodeVector_of_codeEvaluated hv
  refine RunRecord.observation_of_shown (q := ⟨s, [], some (.noReset (codeOf a b))⟩) ?_
  rw [run_shown, List.map_singleton, List.foldl_cons, List.foldl_nil, hdecode]
  simp [Shown.apply, RunRecord.shown, hst, evaluate_undefined]

/-- A RESET as the only step is observed as the cleared `st`, from any state. -/
theorem observe_reset (s : State) {v : InputVector} (hv : rstBit v = true) :
    observe s [v] = .completed [] (.holds 0x00) := by
  refine RunRecord.observation_of_shown (q := ⟨State.reset, [], none⟩) ?_
  rw [run_shown, List.map_singleton, List.foldl_cons, List.foldl_nil, decodeVector_of_rst hv]
  rfl

/-- What a run and one more vector show. -/
theorem run_concat_shown (s : State) (vs : List InputVector) (w : InputVector) :
    (run s (vs ++ [w])).shown = (run s vs).shown.apply (decodeVector w) := by
  rw [run_shown, run_shown, List.map_append, List.foldl_append]
  rfl

/-- What a run of an operation and then IDLEs shows is what the operation shows. -/
theorem run_cons_idles_shown {idles : List InputVector} (h : ∀ w ∈ idles, decodeVector w = .idle)
    (s : State) (v : InputVector) :
    (run s (v :: idles)).shown = Shown.apply ⟨s.st, [], none⟩ (decodeVector v) := by
  rw [run_shown, List.map_cons, List.foldl_cons, Shown.foldl_apply_idles h]

/-- An EVAL that shows no fault found a phase with a row. -/
theorem Shown.phaseOf_le_of_apply_eval {st : EncoderState} {es : List DirectionEvent} {a b : Bool}
    (h : (Shown.apply ⟨st, es, none⟩ (.eval a b)).fault = none) : ∃ v, st = .holds v ∧ phaseOf v ≤ 6 := by
  cases he : evaluate transitionRom st a b with
  | error f => simp [Shown.apply, he] at h
  | ok r =>
    obtain ⟨v, hst, hphase, -⟩ := evaluate_ok_cases he
    exact ⟨v, hst, hphase⟩

/-- Every entry has a phase with a row. -/
theorem phaseOf_entryOf_le (row : BitVec 4) (col : Code) : phaseOf (entryOf row col) ≤ 6 :=
  phaseOf_reachable _ (entryOf_reachable row col)

/-- The phase an entry leads to has no tick in the column of that entry. -/
theorem directionOf_entryOf_repeated :
    ∀ row : BitVec 4, ∀ col : Code,
      directionOf (directionBits (entryOf (phaseOf (entryOf row col)) col)) = .none := by decide

/-- The same EVAL again adds the event None, where the first raised no fault. -/
theorem Shown.apply_eval_repeated_events {st : EncoderState} {es : List DirectionEvent} {a b : Bool}
    (h : (Shown.apply ⟨st, es, none⟩ (.eval a b)).fault = none) :
    ((Shown.apply ⟨st, es, none⟩ (.eval a b)).apply (.eval a b)).events =
      (Shown.apply ⟨st, es, none⟩ (.eval a b)).events ++ [.none] := by
  obtain ⟨v, rfl, hphase⟩ := Shown.phaseOf_le_of_apply_eval h
  rw [Shown.apply_eval_holds hphase, Shown.apply_eval_holds (phaseOf_entryOf_le _ _),
    directionOf_entryOf_repeated]

/-- A vector with a code selects `EVAL #c`. -/
theorem decodeVector_eq_evalOfCode {v : InputVector} {c : Code} (h : codeEvaluated v = some c) :
    decodeVector v = evalOfCode c := by
  obtain ⟨a, b, hdecode, rfl⟩ := decodeVector_of_codeEvaluated h
  rw [hdecode, evalOfCode, codeOf_getLsbD_zero, codeOf_getLsbD_one]

/-! ### The obligations of 40_fsm_operations.md -/

/-- Settles O3: IDLE writes `evq` only, which is no part of what a run shows. -/
theorem idleChangesOnlyTheEventBit : Obligations.IdleChangesOnlyTheEventBit := by
  unfold Obligations.IdleChangesOnlyTheEventBit
  refine ⟨fun _ => ⟨rfl, rfl⟩, fun s v h => ?_, rfl, fun s idles v h => observe_idles_append h s [v]⟩
  obtain ⟨hrst, heval⟩ := requests_of_extractLsb'_eq_zero h
  have hidle : decodeVector v = .idle := decodeVector_of_idle hrst heval
  exact ⟨hidle, step_present_of_idle s hidle⟩

/-- Settles O26: the IDLEs drop out of what is observed, which leaves the one operation after them. -/
theorem undefinedUntilTheFirstReset : Obligations.UndefinedUntilTheFirstReset := by
  unfold Obligations.UndefinedUntilTheFirstReset
  intro s hst idles h
  refine ⟨(run_idles_st h s).trans hst, ?_,
    fun v c hv => (observe_idles_append h s [v]).trans (observe_eval_undefined hst hv),
    fun v hv => (observe_idles_append h s [v]).trans (observe_reset s hv)⟩
  calc observe s idles
      = observe s (idles ++ []) := by rw [List.append_nil]
    _ = observe s [] := observe_idles_append h s []
    _ = .completed [] s.st := rfl
    _ = .completed [] .undefined := by rw [hst]

/-- Settles O41: the first EVAL leaves an entry of the column of its code, the IDLEs leave it there, and the
row that entry leads to has no tick in that column. -/
theorem repeatedLevelsEmitNone : Obligations.RepeatedLevelsEmitNone := by
  unfold Obligations.RepeatedLevelsEmitNone
  intro s v w idles c hv hw hidles hsafe
  have hfirst : (run s (v :: idles)).shown = Shown.apply ⟨s.st, [], none⟩ (evalOfCode c) := by
    rw [run_cons_idles_shown hidles, decodeVector_eq_evalOfCode hv]
  calc (run s (v :: idles ++ [w])).events
      = ((run s (v :: idles)).shown.apply (decodeVector w)).events :=
        congrArg Shown.events (run_concat_shown s (v :: idles) w)
    _ = (run s (v :: idles)).shown.events ++ [.none] := by
        rw [decodeVector_eq_evalOfCode hw, hfirst]
        exact Shown.apply_eval_repeated_events ((congrArg Shown.fault hfirst).symm.trans hsafe)

/-- Settles O1: RESET's writes need nothing of the state, and `in[3]` selects RESET before the other bits. -/
theorem resetClearsEveryState : Obligations.ResetClearsEveryState := by
  unfold Obligations.ResetClearsEveryState
  refine ⟨fun _ => ⟨rfl, rfl⟩, fun s v hrst => ?_, rfl⟩
  have hreset : decodeVector v = .reset := decodeVector_of_rst hrst
  exact ⟨hreset, step_present_of_rst s hrst, by rw [hreset, emitted_reset]⟩

/-- Settles O2: the three tests of the evaluation in their order, and the entry of a populated row, which is
the literal table's value and never has the bits 0x30. -/
theorem evalLoadsTheTableEntry : Obligations.EvalLoadsTheTableEntry := by
  unfold Obligations.EvalLoadsTheTableEntry
  refine ⟨fun a b => ⟨encode_eval a b, decodeVector_encode_eval a b⟩, fun a b s hst => ?_,
    fun a b s v hst h => ?_, fun a b s v hst h => ?_, fun rom a b s v next hst hphase hread hbits => ?_,
    exec_eval⟩
  · exact ⟨exec_eval_undefined hst a b, emitted_eval_error (hst ▸ evaluate_undefined transitionRom a b)⟩
  · have hphase : 6 < phaseOf v := BitVec.lt_def.mpr (by rwa [phaseOf_toNat])
    exact ⟨exec_eval_badPhase hst hphase a b,
      emitted_eval_error (hst ▸ evaluate_badPhase hphase transitionRom a b)⟩
  · have hphase : phaseOf v ≤ 6 := BitVec.le_def.mpr (by rwa [phaseOf_toNat])
    rw [← phaseOf_toNat]
    exact ⟨_, transitionRows_getElem?_eq_entryOf _ hphase _, entryOf_flags _ _,
      exec_eval_holds hst hphase a b, emitted_eval_holds hst hphase a b⟩
  · exact evalOn_fault (hst ▸ evaluate_badFlags hphase hread hbits)

/-- Settles O5: a step is the decoded operation, which completes or, only outside the reachable values,
faults, and reads nothing but `st`. -/
theorem stepPerformsTheDecodedOperation : Obligations.StepPerformsTheDecodedOperation := by
  unfold Obligations.StepPerformsTheDecodedOperation
  refine ⟨step_present, fun s => ?_, fun s t v hst => ⟨emitted_eq_of_st_eq hst _, ?_, ?_⟩⟩
  · cases hs : step s with
    | next t => exact .inl ⟨t, rfl⟩
    | fault f => exact .inr ⟨f, rfl, ready_eq_false_of_exec_fault (s := s.afterSample) hs⟩
    | refused r => exact absurd hs (exec_ne_refused _ _ r)
  · rw [step_present, step_present]
    exact fun s' => exec_next_of_st_eq hst
  · rw [step_present, step_present]
    exact fun f => exec_fault_of_st_eq hst

end Sys2Proof.Machine
end

section
/-!
PROOFS. The lookup of the transition table (41_transition_lookup.md): its 28 entries, read by row and column
and at the linear address (R75; 20_memory.md R33, R34).
-/

namespace Sys2Proof.Machine

/-! ### Bytes at consecutive addresses -/

@[simp] theorem cellsFrom_length (k : Nat) (bytes : List Byte) :
    (cellsFrom k bytes).length = bytes.length := by
  induction bytes generalizing k with
  | nil => rfl
  | cons b bs ih => simp [cellsFrom, ih]

theorem cellsFrom_read_add (k n : Nat) (bytes : List Byte) :
    (cellsFrom k bytes).read (k + n) = bytes[n]? := by
  induction bytes generalizing k n with
  | nil => rfl
  | cons b bs ih =>
    cases n with
    | zero => simp [cellsFrom, Memory.read]
    | succ n =>
      have hk : k ≠ k + (n + 1) := by omega
      rw [cellsFrom, Memory.read, if_neg hk, List.getElem?_cons_succ, ← ih (k + 1) n]
      congr 1; omega

/-! ### Reads of the table -/

/-- The cell at an address is the entry that the rows, one after another, have there (R75). -/
theorem transitionRom_read (n : Nat) : transitionRom.read n = transitionRows.flatten[n]? := by
  rw [transitionRom, ← cellsFrom_read_add 0 n, Nat.zero_add]

theorem tableRead_transitionRom (row : BitVec 4) (col : Code) :
    tableRead transitionRom row col = transitionRows.flatten[linearAddress row col]? :=
  transitionRom_read _

/-- A read at a linear address is the read of its own cell (20_memory.md R34). -/
theorem memRead_eq_read (rom : Memory) (addr : BitVec 5) : memRead rom addr = rom.read addr.toNat := by
  have haddr : linearAddress ((addr.extractLsb' 2 3).setWidth 4) (addr.extractLsb' 0 2) = addr.toNat := by
    simp only [linearAddress, BitVec.toNat_setWidth, BitVec.extractLsb'_toNat, Nat.shiftRight_eq_div_pow]
    omega
  rw [memRead, tableRead, haddr]

theorem memRead_transitionRom (addr : BitVec 5) :
    memRead transitionRom addr = transitionRows.flatten[addr.toNat]? :=
  (memRead_eq_read _ _).trans (transitionRom_read _)

/-- Settles O16: the table is the seven literal rows at consecutive addresses, so each read is an entry of
these rows and the cells are as many as the entries. -/
theorem transitionTableContents : Obligations.TransitionTableContents := by
  unfold Obligations.TransitionTableContents
  simp only [tableRead_transitionRom, memRead_transitionRom]
  exact ⟨rfl, rfl, cellsFrom_length 0 transitionRows.flatten⟩

end Sys2Proof.Machine
end

section
/-!
PROOFS. Model faults and simultaneous requests (60_exceptions.md): a recorded fault is final (R104), the faults
of one EVAL are reported in a fixed order (R105), and the requests of one step become one operation (R108).
-/

namespace Sys2Proof.Machine

/-! ### A recorded fault -/

/-- No sequence of vectors changes a record with a fault. -/
theorem RunRecord.extend_of_fault {r : RunRecord} {f : Fault} (h : r.fault = some f)
    (vs : List InputVector) : r.extend vs = r := by
  induction vs with
  | nil => rfl
  | cons v vs ih => rw [RunRecord.extend_cons, RunRecord.advance_of_fault h, ih]

/-- A record with a fault is observed as that fault. -/
theorem RunRecord.observation_of_fault {r : RunRecord} {f : Fault} (h : r.fault = some f) :
    r.observation = .stopped f := by
  simp [RunRecord.observation, h]

/-- A run goes on from the record of its first part. -/
theorem run_append (s : State) (vs ws : List InputVector) : run s (vs ++ ws) = (run s vs).extend ws :=
  RunRecord.extend_append _ vs ws

/-- Settles O29: the run goes on from the record of `vs`, which its fault keeps as it is. -/
theorem recordedFaultIsFinal : Obligations.RecordedFaultIsFinal := by
  unfold Obligations.RecordedFaultIsFinal
  intro s vs ws f hfault
  have hrun : run s (vs ++ ws) = run s vs :=
    (run_append s vs ws).trans (RunRecord.extend_of_fault hfault ws)
  exact ⟨hrun, by rw [observe, hrun, RunRecord.observation_of_fault hfault]⟩

/-! ### The order of the faults -/

/-- On any table, BadFlags is raised only where the two tests before it pass, and for the entry read. -/
theorem evaluate_badFlags_cases {rom : Memory} {st : EncoderState} {a b : Bool} {e : Byte} {c : Code}
    (h : evaluate rom st a b = .error (.badFlags e c)) :
    ∃ v, st = .holds v ∧ phaseOf v ≤ 6 ∧ tableRead rom (phaseOf v) (codeOf a b) = some e ∧
      directionBits e = 0x30 ∧ c = codeOf a b := by
  cases st with
  | undefined => simp [evaluate_undefined] at h
  | holds v =>
    simp only [evaluate] at h
    split at h
    · cases h
    next hphase =>
    split at h
    · cases h
    next entry hread =>
    split at h
    next hbits =>
      cases h
      exact ⟨v, rfl, BitVec.not_lt.mp hphase, hread, hbits, rfl⟩
    · cases h

/-- A fault of EVAL on any table is the fault of its evaluation. -/
theorem evaluate_error_of_evalOn_fault {rom : Memory} {a b : Bool} {s : State} {f : Fault}
    (h : evalOn rom a b s = .fault f) : evaluate rom s.st a b = .error f := by
  cases hr : evaluate rom s.st a b with
  | error g => rw [evalOn_fault hr] at h; cases h; rfl
  | ok r => simp [evalOn, hr] at h

/-- Settles O28: an undefined `st` and a phase above 6 are answered before the table is read, so BadFlags is
left for an entry read from a phase 0 to 6. -/
theorem modelFaultsInOrder : Obligations.ModelFaultsInOrder := by
  unfold Obligations.ModelFaultsInOrder
  refine fun rom a b s => ⟨fun hst => ?_, fun v e hst hphase _ _ => ?_, fun e c h => ?_⟩
  · exact evalOn_fault (hst ▸ evaluate_undefined rom a b)
  · exact evalOn_fault (hst ▸ evaluate_badPhase hphase rom a b)
  · obtain ⟨v, hst, hphase, hread, -, -⟩ := evaluate_badFlags_cases (evaluate_error_of_evalOn_fault h)
    exact ⟨v, hst, hphase, hread⟩

/-! ### The requests of one step -/

/-- One step on presented ports is the operation their sample selects, one edge later. -/
theorem step_presentDrive (s : State) (d : PortDrive) :
    step (s.presentDrive d) = exec (decodeVector (d.sample s.unit s.edge)) { s with edge := s.edge + 1 } := by
  simp [step]

/-- The operation of sampled ports: `rst` before `eval`, and EVAL of the sampled levels. -/
theorem decodeVector_sample (u n : Nat) (d : PortDrive) :
    decodeVector (d.sample u n) =
      if d.rst then .reset
      else if d.eval then .eval (d.levelA.sample u n .lineA) (d.levelB.sample u n .lineB)
      else .idle :=
  decodeVector_inputVector ..

/-- The merged `eval` input is driven exactly if some requester asks (20_memory.md R41). -/
theorem PortDrive.fromRequesters_eval (rst : Bool) (requests : List Bool) (lb la : LineLevel) :
    (PortDrive.fromRequesters rst requests lb la).eval = decide (true ∈ requests) := by
  rw [Bool.eq_iff_iff]
  simp [PortDrive.fromRequesters]

/-- Requesters' ports select RESET with `rst`, else EVAL if some requester asks, else IDLE. -/
theorem decodeVector_sample_fromRequesters (u n : Nat) (rst : Bool) (requests : List Bool)
    (lb la : LineLevel) :
    decodeVector ((PortDrive.fromRequesters rst requests lb la).sample u n) =
      if rst then .reset
      else if true ∈ requests then .eval (la.sample u n .lineA) (lb.sample u n .lineB)
      else .idle := by
  rw [decodeVector_sample, PortDrive.fromRequesters_eval]
  simp [PortDrive.fromRequesters]

/-- Settles O51: the merged ports select one operation, and the step after it starts from the state that
operation completed. -/
theorem simultaneousRequestsMerge : Obligations.SimultaneousRequestsMerge := by
  unfold Obligations.SimultaneousRequestsMerge
  simp only [step_presentDrive, decodeVector_sample_fromRequesters]
  refine ⟨fun s requests lb la => rfl, fun s requests lb la hmem => ?_,
    fun s requests lb la hmem => ?_, fun s t v w _ => step_present t w⟩
  · simp [hmem]
  · simp [hmem, State.setEvq]

end Sys2Proof.Machine
end

section
/-!
PROOFS. Programs and their vectors (30_encoding.md sections 1, 2 and 6): bytes, digits and statements read back
as the operations they stand for (R49, R59, R60), the operation map (R61), and the lines of a program's text.
-/

namespace Sys2Proof

/-! ### Vectors and bytes -/

/-- The canonical vector of an operation selects that operation. -/
@[simp] theorem decodeVector_encode (i : Instr) : decodeVector (encode i) = i := by
  cases i with
  | reset => rfl
  | eval a b => exact Machine.decodeVector_encode_eval a b
  | idle => rfl

/-- The byte of a vector has a zero high nibble and the vector below it. -/
@[simp] theorem decodeByte_vectorByte (v : InputVector) : decodeByte (vectorByte v) = .ok (decodeVector v) := by
  rw [decodeByte, vectorByte, BitVec.extractLsb'_append_eq_left, BitVec.extractLsb'_append_eq_right]
  exact if_pos rfl

/-- A byte that decodes has a zero high nibble. -/
theorem lt_of_decodeByte_ok {b : Byte} {i : Instr} (h : decodeByte b = .ok i) : b < 16 := by
  unfold decodeByte at h
  split at h
  next hhigh => clear h; revert b; decide
  next => cases h

/-- The bytes of vectors decode to the operations the vectors select. -/
theorem decodeProgram_map_vectorByte (vs : List InputVector) :
    decodeProgram (vs.map vectorByte) = .ok (vs.map decodeVector) := by
  induction vs with
  | nil => rfl
  | cons v vs ih => simp [decodeProgram, ih]

/-- The first byte and the bytes after it, of bytes that decode. -/
theorem decodeProgram_cons_ok {b : Byte} {bs : List Byte} {is : List Instr}
    (h : decodeProgram (b :: bs) = .ok is) :
    ∃ j js, is = j :: js ∧ decodeByte b = .ok j ∧ decodeProgram bs = .ok js := by
  unfold decodeProgram at h
  cases hb : decodeByte b with
  | error e => simp [hb] at h
  | ok j =>
    cases hbs : decodeProgram bs with
    | error e => simp [hb, hbs] at h
    | ok js => exact ⟨j, js, by simpa [hb, hbs] using h.symm, rfl, rfl⟩

/-- Bytes that decode are as many as their operations, and each carries one vector. -/
theorem length_eq_and_lt_of_decodeProgram_ok {bs : List Byte} {is : List Instr}
    (h : decodeProgram bs = .ok is) : bs.length = is.length ∧ ∀ b ∈ bs, b < 16 := by
  induction bs generalizing is with
  | nil => cases h; simp
  | cons b bs ih =>
    obtain ⟨j, js, rfl, hb, hbs⟩ := decodeProgram_cons_ok h
    obtain ⟨hlength, hlt⟩ := ih hbs
    exact ⟨congrArg (· + 1) hlength, List.forall_mem_cons.mpr ⟨lt_of_decodeByte_ok hb, hlt⟩⟩

namespace Machine

/-! ### The digits -/

/-- The hexadecimal digits are sixteen different characters. -/
theorem ofHexDigit_hexDigit (v : InputVector) : ofHexDigit (hexDigit v) = some v := by
  revert v; decide

/-- A character that is no digit stands for no vector. -/
theorem ofHexDigit_of_not_mem {c : Char} (h : c ∉ hexDigits) : ofHexDigit c = none := by
  have hnone : hexDigits.findIdx? (· == c) = none :=
    List.findIdx?_eq_none_iff.mpr fun d hd => beq_false_of_ne (ne_of_mem_of_not_mem hd h)
  rw [ofHexDigit, hnone]

/-- The digits of vectors read back as the vectors. -/
theorem readDigits_digitsText (vs : List InputVector) : readDigits (digitsText vs) = some vs := by
  induction vs with
  | nil => rfl
  | cons v vs ih => simp [digitsText, readDigits, hexDigit_ne_space, ofHexDigit_hexDigit, ih]

/-- Settles O56: the sixteen digits in order, and the place of each of them alone is found. -/
theorem vectorDigitsAreUpperCase : Obligations.VectorDigitsAreUpperCase := by
  unfold Obligations.VectorDigitsAreUpperCase
  exact ⟨rfl, ofHexDigit_hexDigit, fun c => ofHexDigit_of_not_mem⟩

/-! ### Programs -/

/-- A program assembles exactly if it is well formed, to the canonical vectors of its operations. -/
theorem assemble_eq_some_iff {p : Program} {vs : List InputVector} :
    assemble p = some vs ↔ p.wellFormed = true ∧ (expandProgram p).map encode = vs := by
  simp [assemble]

/-- Canonical vectors select the operations they encode, in order. -/
theorem map_decodeVector_map_encode (is : List Instr) : (is.map encode).map decodeVector = is := by
  simp [Function.comp_def]

/-- Settles O14: decode undoes encode for one operation, hence for lists of operations by induction on their
vectors, and a well-formed program assembles to such a list. -/
theorem assembledProgramsDecodeAsWritten : Obligations.AssembledProgramsDecodeAsWritten := by
  unfold Obligations.AssembledProgramsDecodeAsWritten
  refine ⟨decodeVector_encode, fun is => ?_, fun bs is => length_eq_and_lt_of_decodeProgram_ok,
    fun p => ?_, fun p vs h => ?_⟩
  · calc decodeProgram (is.map encodeByte)
        = decodeProgram ((is.map encode).map vectorByte) := by rw [List.map_map]; rfl
      _ = .ok is := by rw [decodeProgram_map_vectorByte, map_decodeVector_map_encode]
  · simp only [assemble_eq_some_iff, exists_and_left, exists_eq', and_true]
  · obtain ⟨-, rfl⟩ := assemble_eq_some_iff.mp h
    refine ⟨map_decodeVector_map_encode _, readDigits_digitsText _, ?_⟩
    rw [decodeProgram_map_vectorByte, map_decodeVector_map_encode]

/-! ### The word of the host -/

/-- A vector, as a word of 8 bits, keeps its value. -/
theorem toNat_mod_256 (v : InputVector) : v.toNat % 2 ^ 8 = v.toNat := by
  omega

/-- The byte of a vector has the vector's value. -/
theorem ofNat_toNat_eq_vectorByte (v : InputVector) : BitVec.ofNat 8 v.toNat = vectorByte v := by
  revert v; decide

/-- Settles O6: the word's low 4 bits are the vector, and its byte carries that vector. -/
theorem fetchWordIsTheNextOperation : Obligations.FetchWordIsTheNextOperation := by
  unfold Obligations.FetchWordIsTheNextOperation
  intro s v
  constructor
  · rw [State.withFetchWord, toNat_mod_256, BitVec.ofNat_toNat, BitVec.setWidth_eq, step_present]
  · have hlt : v.toNat < 256 := by omega
    rw [decodeTableWord, toNat_mod_256, if_pos hlt, ofNat_toNat_eq_vectorByte, decodeBytes,
      decodeByte_vectorByte]

/-! ### The operation map and the codes -/

/-- Settles O8: the three rows, and the one that covers each of the 16 vectors. -/
theorem opcodeRowsPartitionTheVectors : Obligations.OpcodeRowsPartitionTheVectors := by
  unfold Obligations.OpcodeRowsPartitionTheVectors
  exact ⟨rfl, by decide⟩

/-- Settles O11: over the 16 pairs of codes. -/
theorem adjacentAndOppositeCodes : Obligations.AdjacentAndOppositeCodes := by
  unfold Obligations.AdjacentAndOppositeCodes
  exact ⟨by decide, by decide, by decide⟩

/-- Settles O13: each word by its bits. -/
theorem writtenOutWordsDecode : Obligations.WrittenOutWordsDecode := by
  unfold Obligations.WrittenOutWordsDecode
  exact ⟨rfl, rfl, rfl, rfl, rfl, rfl, rfl, rfl, rfl⟩

/-! ### The text of a line -/

/-- A character of a word: no blank and no comma. -/
def isWordChar (c : Char) : Bool := !isBlank c && c != ','

/-- Word characters are collected into the token begun. -/
theorem tokensFrom_append {word : List Char} (h : word.all isWordChar = true) (acc rest : List Char) :
    tokensFrom acc (word ++ rest) = tokensFrom (acc ++ word) rest := by
  induction word generalizing acc with
  | nil => simp
  | cons c cs ih =>
    rw [List.all_cons, Bool.and_eq_true] at h
    obtain ⟨hc, hcs⟩ := h
    simp only [isWordChar, Bool.and_eq_true, Bool.not_eq_true', bne_iff_ne] at hc
    obtain ⟨hblank, hcomma⟩ := hc
    simp [tokensFrom, hblank, hcomma, ih hcs]

/-- A word at the end of a line is its last token. -/
theorem tokensFrom_word {word : List Char} (hword : word.all isWordChar = true) (hne : word ≠ []) :
    tokensFrom [] word = [word] := by
  rw [← List.append_nil word, tokensFrom_append hword]
  simp [tokensFrom, flushToken, hne]

/-- A word before a space is a token. -/
theorem tokensFrom_word_space {word : List Char} (hword : word.all isWordChar = true)
    (hne : word ≠ []) (rest : List Char) :
    tokensFrom [] (word ++ ' ' :: rest) = word :: tokensFrom [] rest := by
  rw [tokensFrom_append hword]
  simp [tokensFrom, flushToken, isBlank, hne]

/-- A word before a comma is a token, and so is the comma. -/
theorem tokensFrom_word_comma {word : List Char} (hword : word.all isWordChar = true)
    (hne : word ≠ []) (rest : List Char) :
    tokensFrom [] (word ++ ',' :: rest) = word :: [','] :: tokensFrom [] rest := by
  rw [tokensFrom_append hword]
  simp [tokensFrom, flushToken, isBlank, hne]

/-- A space where no token is begun is skipped. -/
theorem tokensFrom_space (rest : List Char) : tokensFrom [] (' ' :: rest) = tokensFrom [] rest := by
  simp [tokensFrom, flushToken, isBlank]

theorem ne_of_isDigit {c d : Char} (hc : c.isDigit = true) (hd : d.isDigit = false) : c ≠ d :=
  ne_of_apply_ne Char.isDigit (by simp [hc, hd])

/-- A decimal digit is a character of a word. -/
theorem isWordChar_of_isDigit {c : Char} (h : c.isDigit = true) : isWordChar c = true := by
  have hspace : c ≠ ' ' := ne_of_isDigit h rfl
  have htab : c ≠ '\t' := ne_of_isDigit h rfl
  have hreturn : c ≠ '\r' := ne_of_isDigit h rfl
  have hcomma : c ≠ ',' := ne_of_isDigit h rfl
  simp [isWordChar, isBlank, hspace, htab, hreturn, hcomma]

theorem isDigit_of_mem_toDigits {n : Nat} {c : Char} (h : c ∈ Nat.toDigits 10 n) : c.isDigit = true :=
  Nat.isDigit_of_mem_toDigits (by decide) (by decide) h

theorem isWordChar_toDigits (n : Nat) : (Nat.toDigits 10 n).all isWordChar = true :=
  List.all_eq_true.mpr fun _ hc => isWordChar_of_isDigit (isDigit_of_mem_toDigits hc)

theorem semicolon_not_mem_toDigits (n : Nat) : ';' ∉ Nat.toDigits 10 n :=
  fun hc => ne_of_isDigit (isDigit_of_mem_toDigits hc) (by decide : Char.isDigit ';' = false) rfl

/-- The decimal digits of a number are read as that number. -/
theorem numeral_toDigits (n : Nat) : numeral (Nat.toDigits 10 n) = some n := by
  have hdigits : (Nat.toDigits 10 n).all Char.isDigit = true :=
    List.all_eq_true.mpr fun _ hc => isDigit_of_mem_toDigits hc
  have hvalue : (Nat.toDigits 10 n).foldl (fun k d => 10 * k + (d.toNat - '0'.toNat)) 0 = n :=
    Nat.ofDigitChars_eq_foldl.symm.trans Nat.ofDigitChars_ten_toDigits
  rw [numeral, hdigits, hvalue]
  simp [Nat.toDigits_ne_nil]

/-- A line with no semicolon has no comment. -/
theorem stripComment_of_not_mem {line : List Char} (h : ';' ∉ line) : stripComment line = line :=
  List.takeWhile_eq_self_iff.mpr fun _ hc => bne_iff_ne.mpr (ne_of_mem_of_not_mem hc h)

/-- The first semicolon ends what is read of a line. -/
theorem stripComment_append {line : List Char} (h : ';' ∉ line) (comment : List Char) :
    stripComment (line ++ ';' :: comment) = line := by
  have hline : ∀ c ∈ line, (c != ';') = true := fun c hc => bne_iff_ne.mpr (ne_of_mem_of_not_mem hc h)
  rw [stripComment, List.takeWhile_append_of_pos hline]
  simp

/-- A line with no comment is read as the statement of its tokens, where it has some. -/
theorem parseLine_of_tokens {line token : List Char} {tokens : List (List Char)} (h : ';' ∉ line)
    (htokens : tokensFrom [] line = token :: tokens) :
    parseLine line = (stmtOfTokens (token :: tokens)).map some := by
  rw [parseLine, stripComment_of_not_mem h, htokens]

/-- The line `EVAL a, b`, for any two numerals. -/
theorem parseLine_evalLevels (a b : Nat) :
    parseLine (['E', 'V', 'A', 'L', ' '] ++ Nat.toDigits 10 a ++ [',', ' '] ++ Nat.toDigits 10 b) =
      some (some (.evalLevels a b)) := by
  have htokens : tokensFrom []
      (['E', 'V', 'A', 'L', ' '] ++ Nat.toDigits 10 a ++ [',', ' '] ++ Nat.toDigits 10 b) =
      [wordEval, Nat.toDigits 10 a, [','], Nat.toDigits 10 b] := by
    rw [List.append_assoc, List.append_assoc]
    calc tokensFrom [] (wordEval ++ ' ' :: (Nat.toDigits 10 a ++ ',' :: ' ' :: Nat.toDigits 10 b))
        = wordEval :: tokensFrom [] (Nat.toDigits 10 a ++ ',' :: ' ' :: Nat.toDigits 10 b) :=
          tokensFrom_word_space rfl (List.cons_ne_nil _ _) _
      _ = _ := by
          rw [tokensFrom_word_comma (isWordChar_toDigits a) Nat.toDigits_ne_nil, tokensFrom_space,
            tokensFrom_word (isWordChar_toDigits b) Nat.toDigits_ne_nil]
  have hline : ';' ∉ ['E', 'V', 'A', 'L', ' '] ++ Nat.toDigits 10 a ++ [',', ' '] ++ Nat.toDigits 10 b := by
    simp [semicolon_not_mem_toDigits]
  rw [parseLine_of_tokens hline htokens]
  simp [stmtOfTokens, numeral_toDigits]

/-- The line `EVAL #c`, for any numeral. -/
theorem parseLine_evalCode (c : Nat) :
    parseLine (['E', 'V', 'A', 'L', ' ', '#'] ++ Nat.toDigits 10 c) = some (some (.evalCode c)) := by
  have hword : ('#' :: Nat.toDigits 10 c).all isWordChar = true := isWordChar_toDigits c
  have htokens : tokensFrom [] (['E', 'V', 'A', 'L', ' ', '#'] ++ Nat.toDigits 10 c) =
      [wordEval, '#' :: Nat.toDigits 10 c] :=
    calc tokensFrom [] (wordEval ++ ' ' :: '#' :: Nat.toDigits 10 c)
        = wordEval :: tokensFrom [] ('#' :: Nat.toDigits 10 c) :=
          tokensFrom_word_space rfl (List.cons_ne_nil _ _) _
      _ = _ := by rw [tokensFrom_word hword (List.cons_ne_nil _ _)]
  have hline : ';' ∉ ['E', 'V', 'A', 'L', ' ', '#'] ++ Nat.toDigits 10 c := by
    simp [semicolon_not_mem_toDigits]
  have hidle : wordEval ≠ wordIdle := by decide
  rw [parseLine_of_tokens hline htokens]
  simp [stmtOfTokens, numeral_toDigits, hidle]

/-- The line `IDLE n`, for any numeral. -/
theorem parseLine_idles (n : Nat) :
    parseLine (['I', 'D', 'L', 'E', ' '] ++ Nat.toDigits 10 n) = some (some (.idles n)) := by
  have htokens : tokensFrom [] (['I', 'D', 'L', 'E', ' '] ++ Nat.toDigits 10 n) =
      [wordIdle, Nat.toDigits 10 n] :=
    calc tokensFrom [] (wordIdle ++ ' ' :: Nat.toDigits 10 n)
        = wordIdle :: tokensFrom [] (Nat.toDigits 10 n) :=
          tokensFrom_word_space rfl (List.cons_ne_nil _ _) _
      _ = _ := by rw [tokensFrom_word (isWordChar_toDigits n) Nat.toDigits_ne_nil]
  have hline : ';' ∉ ['I', 'D', 'L', 'E', ' '] ++ Nat.toDigits 10 n := by
    simp [semicolon_not_mem_toDigits]
  rw [parseLine_of_tokens hline htokens]
  simp [stmtOfTokens, numeral_toDigits]

/-! ### The vectors of a statement -/

/-- One statement assembles to its own vectors, where it is well formed. -/
theorem assemble_singleton (x : Stmt) :
    assemble [x] = if x.wellFormed then some ((expand x).map encode) else none := by
  simp [assemble, Program.wellFormed, expandProgram]

/-- An ill-formed statement does not assemble. -/
theorem assemble_singleton_of_illFormed {x : Stmt} (h : x.wellFormed = false) : assemble [x] = none := by
  simp [assemble_singleton, h]

/-- Settles O15: each statement by its expansion and its bounds; each line by its tokens, a numeral being one
token whatever its digits; a comment is cut off before the line is read. -/
theorem assemblerStatementsAssemble : Obligations.AssemblerStatementsAssemble := by
  unfold Obligations.AssemblerStatementsAssemble
  refine ⟨rfl, rfl, fun a b ha hb => ?_, fun c hc => ?_, fun n => ?_, rfl, rfl, fun a b h => ?_,
    fun c h => ?_, rfl, rfl, parseLine_evalLevels, parseLine_evalCode, parseLine_idles, rfl, rfl,
    fun line comment h => ?_⟩
  · interval_cases a <;> interval_cases b <;> rfl
  · interval_cases c <;> rfl
  · simp [assemble_singleton, Stmt.wellFormed, expand, encode]
  · exact assemble_singleton_of_illFormed (by simp [Stmt.wellFormed]; omega)
  · exact assemble_singleton_of_illFormed (by simpa [Stmt.wellFormed] using h)
  · rw [parseLine, parseLine, stripComment_append h, stripComment_of_not_mem h]

end Machine

end Sys2Proof
end

section
/-!
PROOFS. One operation from any state (10_state.md section 1; 60_exceptions.md section 1): what it writes, when it
faults, the invariant on the reachable values of `st`, the ports after it, and the entries of the table that
decide it.
-/

namespace Sys2Proof.Machine

/-! ### What an operation writes -/

/-- A state is ready exactly if its `st` holds a reachable value. -/
theorem State.ready_iff {s : State} : s.ready = true ↔ ∃ v, s.st = .holds v ∧ v ∈ reachableValues := by
  unfold State.ready
  cases hst : s.st with
  | undefined => simp
  | holds v => simp

/-- A state is lawful exactly if its `st` is undefined or it is ready. -/
theorem State.lawful_iff {s : State} : s.lawful = true ↔ s.st = .undefined ∨ s.ready = true := by
  unfold State.lawful State.ready
  cases hst : s.st with
  | undefined => simp
  | holds v => simp

/-- RESET and EVAL leave a reachable value in `st`, whatever was there. -/
theorem ready_of_exec_next {i : Instr} {s t : State} (h : exec i s = .next t) (hi : i ≠ .idle) :
    t.ready = true := by
  obtain ⟨rfl, rfl⟩ | ⟨a, b, v, rfl, -, -, rfl⟩ | ⟨rfl, -⟩ := exec_next_cases h
  · exact State.ready_iff.mpr ⟨0x00, rfl, by decide⟩
  · exact State.ready_iff.mpr ⟨_, rfl, entryOf_reachable _ _⟩
  · exact absurd rfl hi

/-- IDLE leaves `st` as it is. -/
theorem st_eq_of_exec_idle {s t : State} (h : exec .idle s = .next t) : t.st = s.st := by
  cases h; rfl

/-- Settles O4: by what each operation that completes writes. -/
theorem operationsWriteOnlyTheirRegisters : Obligations.OperationsWriteOnlyTheirRegisters := by
  unfold Obligations.OperationsWriteOnlyTheirRegisters
  intro i s t h
  have hdefined (hi : i ≠ .idle) : ∃ v, t.st = .holds v :=
    (State.ready_iff.mp (ready_of_exec_next h hi)).imp fun _ hv => hv.1
  have hidle (hi : i = .idle) : t.st = s.st := by
    subst hi; exact st_eq_of_exec_idle h
  obtain ⟨rfl, rfl⟩ | ⟨a, b, v, rfl, -, -, rfl⟩ | ⟨rfl, rfl⟩ := exec_next_cases h
  · exact ⟨rfl, rfl, rfl, by simp, hidle, hdefined⟩
  · exact ⟨rfl, rfl, rfl, by simp, hidle, hdefined⟩
  · exact ⟨rfl, rfl, rfl, by simp [State.setEvq], hidle, hdefined⟩

/-- Settles O55: by the definition of the step. -/
theorem stepUsesUpTheSampledItem : Obligations.StepUsesUpTheSampledItem := by
  unfold Obligations.StepUsesUpTheSampledItem
  exact fun _ => rfl

/-! ### When an operation faults -/

/-- An evaluation on the block's table fails exactly for an undefined `st` and for a phase with no row. -/
theorem evaluate_error_iff {st : EncoderState} {a b : Bool} {f : Fault} :
    evaluate transitionRom st a b = .error f ↔
      (st = .undefined ∧ f = .noReset (codeOf a b)) ∨
      (∃ v, st = .holds v ∧ 6 < phaseOf v ∧ f = .badPhase v (codeOf a b)) := by
  cases st with
  | undefined => simp [evaluate_undefined, eq_comm (a := f)]
  | holds v =>
    by_cases hphase : phaseOf v ≤ 6
    · have hnot : ¬ 6#4 < phaseOf v := BitVec.not_lt.mpr hphase
      simp [evaluate_holds hphase, hnot]
    · have hlt : 6#4 < phaseOf v := BitVec.not_le.mp hphase
      simp [evaluate_badPhase hlt, hlt, eq_comm (a := f)]

/-- An operation faults exactly if it is an EVAL whose evaluation fails. -/
theorem exec_fault_iff {i : Instr} {s : State} {f : Fault} :
    exec i s = .fault f ↔ ∃ a b, i = .eval a b ∧ evaluate transitionRom s.st a b = .error f := by
  refine ⟨exec_fault_cases, ?_⟩
  rintro ⟨a, b, rfl, he⟩
  exact exec_eval_error he

/-- A vector that adds a fault to a record adds nothing else. -/
theorem RunRecord.advance_eq_of_fault {r : RunRecord} {v : InputVector} {f : Fault} (hr : r.fault = none)
    (h : (r.advance v).fault = some f) : r.advance v = { r with fault := some f } := by
  rw [RunRecord.advance_of_none hr] at h ⊢
  cases he : exec (decodeVector v) { r.state with edge := r.state.edge + 1 } with
  | next t => simp [he] at h
  | fault g =>
    obtain rfl : g = f := by simpa [he] using h
    rfl
  | refused q => exact absurd he (exec_ne_refused _ _ q)

/-- Settles O27: the faults of an operation are those of its evaluation on the block's table, which never gives
BadFlags; a faulting step adds only the fault to the record. -/
theorem modelFaultsExactly : Obligations.ModelFaultsExactly := by
  unfold Obligations.ModelFaultsExactly
  refine ⟨fun i s f => ?_, exec_ne_refused, fun r v f hr h => ?_, fun _ => rfl, fun _ _ => rfl,
    fun _ _ => rfl⟩
  · simp only [exec_fault_iff, evaluate_error_iff]
  · rw [RunRecord.advance_eq_of_fault hr h]
    exact ⟨rfl, rfl⟩

/-- A phase, with zeros above it, has itself as its phase. -/
theorem phaseOf_setWidth (p : BitVec 4) : phaseOf (p.setWidth 8) = p := by
  revert p; decide

/-- Settles O34: the entry EVAL writes is selected by the phase, and every entry is a reachable value. -/
theorem strayBitsOfTheStateAreIgnored : Obligations.StrayBitsOfTheStateAreIgnored := by
  unfold Obligations.StrayBitsOfTheStateAreIgnored
  refine fun s v a b hst => ⟨fun hphase => ?_, fun hphase => exec_eval_badPhase hst hphase a b⟩
  have hexec := exec_eval_holds hst hphase a b
  refine ⟨_, hexec, ready_of_exec_next hexec (by simp), ?_⟩
  have hsame := phaseOf_setWidth (phaseOf v)
  rw [exec_eval_holds (v := (phaseOf v).setWidth 8) rfl (hsame.symm ▸ hphase), hsame]
  rfl

/-! ### The invariant -/

/-- Every operation of a ready state completes and leaves a ready state. -/
theorem exec_of_ready (i : Instr) {s : State} (h : s.ready = true) :
    ∃ t, exec i s = .next t ∧ t.ready = true := by
  cases he : exec i s with
  | next t =>
    refine ⟨t, rfl, ?_⟩
    by_cases hi : i = .idle
    · subst hi
      obtain ⟨v, hst, hv⟩ := State.ready_iff.mp h
      exact State.ready_iff.mpr ⟨v, (st_eq_of_exec_idle he).trans hst, hv⟩
    · exact ready_of_exec_next he hi
  | fault f => simp [ready_eq_false_of_exec_fault he] at h
  | refused q => exact absurd he (exec_ne_refused i s q)

/-- An operation of a lawful state that completes leaves a lawful state. -/
theorem lawful_of_exec_next {i : Instr} {s t : State} (hs : s.lawful = true) (h : exec i s = .next t) :
    t.lawful = true := by
  by_cases hi : i = .idle
  · subst hi
    unfold State.lawful
    rw [st_eq_of_exec_idle h]
    exact hs
  · exact State.lawful_iff.mpr (.inr (ready_of_exec_next h hi))

/-- The one fault of a lawful state is NoReset, of an undefined `st`. -/
theorem noReset_of_lawful {i : Instr} {s : State} {f : Fault} (hs : s.lawful = true)
    (h : exec i s = .fault f) : s.st = .undefined ∧ ∃ c, f = .noReset c := by
  have hst : s.st = .undefined := by
    simpa [ready_eq_false_of_exec_fault h] using State.lawful_iff.mp hs
  obtain ⟨a, b, -, he⟩ := exec_fault_iff.mp h
  obtain ⟨-, hf⟩ | ⟨v, hv, -⟩ := evaluate_error_iff.mp he
  · exact ⟨hst, _, hf⟩
  · simp [hst] at hv

/-- Settles O25: a step is an operation of the state after sampling, whose `st` is that of the state. -/
theorem everyStepKeepsReadyStates : Obligations.EveryStepKeepsReadyStates := by
  unfold Obligations.EveryStepKeepsReadyStates
  exact ⟨fun s h => exec_of_ready _ (s := s.afterSample) h,
    fun s t hs h => lawful_of_exec_next (s := s.afterSample) hs h,
    fun s f hs h => noReset_of_lawful (s := s.afterSample) hs h⟩

/-- Settles O24: 0x00 is a reachable value, and `st` is undefined at power-on. -/
theorem resetStateIsReady : Obligations.ResetStateIsReady := by
  unfold Obligations.ResetStateIsReady
  exact ⟨by decide, by decide, fun _ => rfl⟩

/-! ### The ports -/

/-- The ports of a defined `st`. -/
theorem State.ports_of_holds {s : State} {v : Byte} (h : s.st = .holds v) :
    s.ports = ⟨s.evq, if s.evq then dirField v else 0b00, v⟩ := by
  rw [State.ports, h]

/-- With `evq` clear and `st` defined, the ports show no event. -/
theorem State.ports_of_evq_eq_false {s : State} (hst : s.st ≠ .undefined) (hevq : s.evq = false) :
    s.ports.evValid = false ∧ s.ports.evDir = 0b00 := by
  cases h : s.st with
  | undefined => exact absurd h hst
  | holds v => simp [State.ports_of_holds h, hevq]

/-- No reachable value has the direction field 0b11. -/
theorem dirField_reachable : ∀ v ∈ reachableValues, dirField v ≠ 0b11 := by decide

/-- Settles O36: by the definition of the ports, and over the nine reachable values. -/
theorem outputPortsOfTheRegisters : Obligations.OutputPortsOfTheRegisters := by
  unfold Obligations.OutputPortsOfTheRegisters
  refine ⟨fun s v hst => ?_, fun s hready => ?_⟩
  · rw [State.ports_of_holds hst]
    exact ⟨rfl, rfl, rfl⟩
  · obtain ⟨v, hst, hv⟩ := State.ready_iff.mp hready
    rw [State.ports_of_holds hst]
    cases s.evq with
    | false => simp
    | true => simpa using dirField_reachable v hv

/-- What an operation that completes leaves in `evq` and emits: nothing, or, for EVAL, the event whose bits are
the direction field it wrote. -/
theorem evq_and_emitted_of_exec_next {i : Instr} {s t : State} (h : exec i s = .next t) :
    (t.evq = false ∧ emitted i s = none) ∨
    ∃ a b v e, i = .eval a b ∧ t.st = .holds v ∧ t.evq = true ∧ emitted i s = some e ∧
      dirField v = dirBitsOf e := by
  obtain ⟨rfl, rfl⟩ | ⟨a, b, w, rfl, hw, hphase, rfl⟩ | ⟨rfl, rfl⟩ := exec_next_cases h
  · exact .inl ⟨rfl, rfl⟩
  · exact .inr ⟨a, b, _, _, rfl, rfl, rfl, emitted_eval_holds hw hphase a b, dirField_entryOf _ _⟩
  · exact .inl ⟨rfl, rfl⟩

/-- Settles O37: with `evq` clear nothing was emitted; with `evq` set the step was an EVAL, and the direction
field it wrote is that of its event. -/
theorem portsShowTheEventOfTheStep : Obligations.PortsShowTheEventOfTheStep := by
  unfold Obligations.PortsShowTheEventOfTheStep
  intro s t v h hst
  rw [step_present] at h
  obtain ⟨hevq, hnone⟩ | ⟨a, b, w, e, hi, hw, hevq, hsome, hdir⟩ := evq_and_emitted_of_exec_next h
  · rw [emitted_edge] at hnone
    obtain ⟨hvalid, hdir⟩ := State.ports_of_evq_eq_false hst hevq
    rw [hnone]
    exact ⟨hvalid, hdir, fun _ => ⟨hvalid, hdir⟩⟩
  · rw [emitted_edge] at hsome
    rw [hsome, State.ports_of_holds hw, hevq]
    exact ⟨rfl, hdir, fun hnone => by simp [codeEvaluated, hi] at hnone⟩

/-! ### The entries of the table -/

/-- The event of each entry: a tick in column 3 of rows 1 and 5 only. -/
theorem directionOf_entryOf_iff :
    ∀ row : BitVec 4, ∀ col : Code,
      (directionOf (directionBits (entryOf row col)) = .negative ↔ row = 1 ∧ col = 3) ∧
      (directionOf (directionBits (entryOf row col)) = .positive ↔ row = 5 ∧ col = 3) ∧
      (directionOf (directionBits (entryOf row col)) = .none ↔
        ¬ (row = 1 ∧ col = 3) ∧ ¬ (row = 5 ∧ col = 3)) := by decide

/-- Settles O39: the event of an EVAL is that of its entry. -/
theorem ticksOnlyOnCompletion : Obligations.TicksOnlyOnCompletion := by
  unfold Obligations.TicksOnlyOnCompletion
  intro s v a b hst hphase
  simp only [emitted_eval_holds hst hphase, Option.some.injEq]
  exact directionOf_entryOf_iff _ _

/-- The entries of row START and their events. -/
theorem entryOf_start :
    ∀ c : Code, entryOf 0 c = (if c = 1 then 0x02 else if c = 2 then 0x04 else 0x00) ∧
      directionOf (directionBits (entryOf 0 c)) = .none := by decide

/-- Settles O40: by the four entries of row START, none of which has a tick. -/
theorem evalFromStartBeginsAPath : Obligations.EvalFromStartBeginsAPath := by
  unfold Obligations.EvalFromStartBeginsAPath
  intro s v c hst hphase
  have hrow : phaseOf v ≤ 6 := by rw [hphase]; decide
  obtain ⟨hentry, hevent⟩ := entryOf_start c
  rw [evalOfCode, exec_eval_holds hst hrow, emitted_eval_holds hst hrow, codeOf_levels, hphase, hevent, hentry]
  exact ⟨rfl, rfl⟩

/-- What R53 and 41_transition_lookup.md section 2 say of the entry in each place of the table. -/
theorem entryOf_reaches_start :
    ∀ r : BitVec 4, r ≤ 6 → ∀ c : Code,
      (phaseOf (entryOf r c) = 0 ↔ (r.toNat, c.toNat) ∈
        [(0, 0), (0, 3), (1, 1), (1, 3), (2, 2), (2, 3), (3, 3), (4, 1), (4, 3), (5, 2), (5, 3), (6, 3)]) ∧
      (entryOf r c &&& 0x30 ≠ 0 ↔ (r.toNat, c.toNat) ∈ [(1, 3), (5, 3)]) ∧
      (c = 3 → phaseOf (entryOf r c) = 0) ∧
      (entryOf r c).getLsbD 7 = false ∧ (entryOf r c).getLsbD 6 = false ∧
      (entryOf r c).getLsbD 3 = false := by decide

/-- A row with an entry is one of rows 0 to 6. -/
theorem row_le_of_tableRead {row : BitVec 4} {col : Code} {e : Byte}
    (h : tableRead transitionRom row col = some e) : row ≤ 6 := by
  by_contra hrow
  simp [tableRead_unpopulated row (BitVec.not_le.mp hrow)] at h

/-- Settles O22: a value read is the entry of one of rows 0 to 6, and these are finitely many. -/
theorem cellsThatReachStart : Obligations.CellsThatReachStart := by
  unfold Obligations.CellsThatReachStart
  refine ⟨fun r c e h => ?_, by decide, by decide⟩
  rw [← entryOf_eq_of_tableRead h]
  exact entryOf_reaches_start r (row_le_of_tableRead h) c

/-- Settles O57: the table is 28 entries at consecutive addresses from 0 on. -/
theorem tableHasNoOtherCells : Obligations.TableHasNoOtherCells := by
  unfold Obligations.TableHasNoOtherCells
  refine ⟨fun addr h => ?_, transitionRom_wf⟩
  rw [transitionRom_read]
  exact List.getElem?_eq_none h

end Sys2Proof.Machine
end

section
/-!
PROOFS. Runs in parts (20_memory.md section 3; 70_reset_and_hazards.md sections 1, 3 and 5): the events of the
parts in order, the invariant along a run, what a RESET hides, and the vectors and bits that do not show.
-/

namespace Sys2Proof.Machine

/-! ### Events before a run -/

/-- The record with these events before its own. -/
def RunRecord.precededBy (r : RunRecord) (es : List DirectionEvent) : RunRecord :=
  { r with events := es ++ r.events }

@[simp] theorem RunRecord.precededBy_state (r : RunRecord) (es : List DirectionEvent) :
    (r.precededBy es).state = r.state := rfl
@[simp] theorem RunRecord.precededBy_events (r : RunRecord) (es : List DirectionEvent) :
    (r.precededBy es).events = es ++ r.events := rfl
@[simp] theorem RunRecord.precededBy_fault (r : RunRecord) (es : List DirectionEvent) :
    (r.precededBy es).fault = r.fault := rfl

/-- The events before do not change what one more vector does. -/
theorem RunRecord.precededBy_advance (r : RunRecord) (es : List DirectionEvent) (v : InputVector) :
    (r.precededBy es).advance v = (r.advance v).precededBy es := by
  cases hr : r.fault with
  | some f =>
    rw [RunRecord.advance_of_fault hr, RunRecord.advance_of_fault (r := r.precededBy es) hr]
  | none =>
    rw [RunRecord.advance_of_none hr, RunRecord.advance_of_none (r := r.precededBy es) hr,
      RunRecord.precededBy_state]
    cases exec (decodeVector v) { r.state with edge := r.state.edge + 1 } with
    | next t => simp [RunRecord.precededBy]
    | fault f => rfl
    | refused q => rfl

theorem RunRecord.precededBy_extend (r : RunRecord) (es : List DirectionEvent) (vs : List InputVector) :
    (r.precededBy es).extend vs = (r.extend vs).precededBy es := by
  induction vs generalizing r with
  | nil => rfl
  | cons v vs ih => rw [RunRecord.extend_cons, RunRecord.extend_cons, RunRecord.precededBy_advance, ih]

/-- A record with no fault goes on as the run from its state, after its events. -/
theorem RunRecord.extend_eq_run {r : RunRecord} (h : r.fault = none) (vs : List InputVector) :
    r.extend vs = (run r.state vs).precededBy r.events := by
  have hstart : r = (RunRecord.start r.state).precededBy r.events := by
    rcases r with ⟨s, es, f⟩
    obtain rfl : f = none := h
    simp [RunRecord.precededBy, RunRecord.start]
  calc r.extend vs
      = ((RunRecord.start r.state).precededBy r.events).extend vs := congrArg (·.extend vs) hstart
    _ = (run r.state vs).precededBy r.events := RunRecord.precededBy_extend _ _ _

/-- A run whose first part is safe: the second part from the state between, after the events of the first. -/
theorem run_append_of_safe {s : State} {vs : List InputVector} (h : SafeRun s vs) (ws : List InputVector) :
    run s (vs ++ ws) = (run (run s vs).state ws).precededBy (run s vs).events :=
  (run_append s vs ws).trans (RunRecord.extend_eq_run h ws)

theorem tickCount_append (es fs : List DirectionEvent) :
    tickCount (es ++ fs) = tickCount es + tickCount fs := by
  simp [tickCount]

/-- Settles O48: the run goes on from the record of its first part, and the tick count is a sum. -/
theorem tickCountIsTheSerialSum : Obligations.TickCountIsTheSerialSum := by
  unfold Obligations.TickCountIsTheSerialSum
  intro s vs ws hsafe
  rw [run_append_of_safe hsafe]
  exact ⟨rfl, tickCount_append _ _⟩

/-! ### The invariant along a run -/

/-- One more vector keeps a record with no fault and a ready state so. -/
theorem RunRecord.ready_advance {r : RunRecord} (hr : r.fault = none) (hready : r.state.ready = true)
    (v : InputVector) : (r.advance v).fault = none ∧ (r.advance v).state.ready = true := by
  obtain ⟨t, ht, htready⟩ :=
    exec_of_ready (decodeVector v) (s := { r.state with edge := r.state.edge + 1 }) hready
  rw [RunRecord.advance_of_none hr, ht]
  exact ⟨rfl, htready⟩

theorem RunRecord.ready_extend {r : RunRecord} (hr : r.fault = none) (hready : r.state.ready = true)
    (vs : List InputVector) : (r.extend vs).fault = none ∧ (r.extend vs).state.ready = true := by
  induction vs generalizing r with
  | nil => exact ⟨hr, hready⟩
  | cons v vs ih =>
    obtain ⟨hr', hready'⟩ := RunRecord.ready_advance hr hready v
    exact ih hr' hready'

/-! ### RESET in a run -/

/-- A vector with `in[3] = 1` clears the registers of a record with no fault, one edge later. -/
theorem RunRecord.advance_of_rst {r : RunRecord} (hr : r.fault = none) {v : InputVector}
    (hv : rstBit v = true) :
    r.advance v =
      { r with state := { r.state with st := .holds 0x00, evq := false, edge := r.state.edge + 1 } } := by
  rw [RunRecord.advance, hr]
  simp [step_present_of_rst _ hv, decodeVector_of_rst hv]

/-- A vector that selects IDLE clears `evq` of a record with no fault, one edge later. -/
theorem RunRecord.advance_of_idle {r : RunRecord} (hr : r.fault = none) {v : InputVector}
    (hv : decodeVector v = .idle) :
    r.advance v = { r with state := { r.state with evq := false, edge := r.state.edge + 1 } } := by
  rw [RunRecord.advance, hr]
  simp [step_present_of_idle _ hv, hv]

/-- A run with a clean entry is a first RESET and other vectors. -/
theorem cleanEntry_cases {vs : List InputVector} (h : cleanEntry vs = true) :
    ∃ v ws, vs = v :: ws ∧ rstBit v = true := by
  cases vs with
  | nil => simp [cleanEntry] at h
  | cons v ws => exact ⟨v, ws, rfl, h⟩

/-- Settles O30: the first RESET makes the state ready, which no step undoes, and a safe run emits one event
per EVAL. -/
theorem cleanRunsNeverFault : Obligations.CleanRunsNeverFault := by
  unfold Obligations.CleanRunsNeverFault
  intro s vs hclean
  obtain ⟨v, ws, rfl, hv⟩ := cleanEntry_cases hclean
  have hfirst := RunRecord.advance_of_rst (RunRecord.start_fault s) hv
  have hfault : ((RunRecord.start s).advance v).fault = none := by rw [hfirst]; rfl
  have hready : ((RunRecord.start s).advance v).state.ready = true := by
    rw [hfirst]; exact State.ready_iff.mpr ⟨0x00, rfl, by decide⟩
  obtain ⟨hsafe, hend⟩ := RunRecord.ready_extend hfault hready ws
  exact ⟨hsafe, hend, run_events_length hsafe⟩

/-- What is shown of a run that begins with RESET is what is shown of its other vectors from reset. -/
theorem run_cons_rst_shown (s : State) {v : InputVector} (hv : rstBit v = true) (ws : List InputVector) :
    (run s (v :: ws)).shown = (run State.reset ws).shown := by
  rw [run_shown, run_shown, List.map_cons, List.foldl_cons, decodeVector_of_rst hv, Shown.apply_reset]
  rfl

/-- Settles O31: both runs are observed as that of the other vectors from reset. -/
theorem resetHidesThePast : Obligations.ResetHidesThePast := by
  unfold Obligations.ResetHidesThePast
  intro s t vs hclean
  obtain ⟨v, ws, rfl, hv⟩ := cleanEntry_cases hclean
  exact RunRecord.observation_of_shown ((run_cons_rst_shown s hv ws).trans (run_cons_rst_shown t hv ws).symm)

/-- Settles O32: the run after the first part begins with RESET, so it shows what the run from reset shows. -/
theorem resetDiscardsThePartialPath : Obligations.ResetDiscardsThePartialPath := by
  unfold Obligations.ResetDiscardsThePartialPath
  intro s vs ws v hv hsafe
  have hshown := run_cons_rst_shown (run s vs).state hv ws
  have hst := congrArg Shown.st hshown
  have hevents := congrArg Shown.events hshown
  rw [run_append_of_safe hsafe]
  exact ⟨congrArg ((run s vs).events ++ ·) hevents, hst⟩

/-- A record of a block as RESET leaves it, with no event emitted. -/
def RunRecord.AtRest (r : RunRecord) : Prop :=
  r.fault = none ∧ r.state.st = .holds 0x00 ∧ r.state.evq = false ∧ r.events = []

/-- RESETs and IDLEs leave a block at rest. -/
theorem RunRecord.AtRest.extend {r : RunRecord} (h : r.AtRest) {vs : List InputVector}
    (hvs : ∀ v ∈ vs, rstBit v = true ∨ decodeVector v = .idle) : (r.extend vs).AtRest := by
  induction vs generalizing r with
  | nil => exact h
  | cons v vs ih =>
    obtain ⟨hv, hrest⟩ := List.forall_mem_cons.mp hvs
    obtain ⟨hfault, hst, hevq, hevents⟩ := h
    refine ih ?_ hrest
    rcases hv with hv | hv
    · rw [RunRecord.advance_of_rst hfault hv]
      exact ⟨hfault, rfl, rfl, hevents⟩
    · rw [RunRecord.advance_of_idle hfault hv]
      exact ⟨hfault, hst, rfl, hevents⟩

/-- Settles O33: the first RESET brings the block to rest, and the vectors after it leave it there. -/
theorem heldResetIsOneReset : Obligations.HeldResetIsOneReset := by
  unfold Obligations.HeldResetIsOneReset
  intro s resets idles hne hresets hidles
  obtain ⟨v, vs, rfl⟩ := List.exists_cons_of_ne_nil hne
  obtain ⟨hv, hvs⟩ := List.forall_mem_cons.mp hresets
  have hfirst : ((RunRecord.start s).advance v).AtRest := by
    rw [RunRecord.advance_of_rst (RunRecord.start_fault s) hv]
    exact ⟨rfl, rfl, rfl, rfl⟩
  have hrest : ∀ w ∈ vs ++ idles, rstBit w = true ∨ decodeVector w = .idle := fun w hw =>
    (List.mem_append.mp hw).imp (hvs w) (hidles w)
  obtain ⟨-, hst, hevq, hevents⟩ := hfirst.extend hrest
  refine ⟨hst, hevq, hevents, (State.ports_of_holds hst).trans ?_⟩
  rw [hevq]
  rfl

/-! ### What does not show -/

/-- Leaving out the IDLEs of a list of operations changes nothing shown. -/
theorem Shown.foldl_apply_filter_idle (x : Shown) (vs : List InputVector) :
    ((vs.filter fun v => decodeVector v ≠ .idle).map decodeVector).foldl Shown.apply x =
      (vs.map decodeVector).foldl Shown.apply x := by
  induction vs generalizing x with
  | nil => rfl
  | cons v vs ih =>
    by_cases hv : decodeVector v = .idle
    · rw [List.filter_cons_of_neg (by simpa using hv), List.map_cons, List.foldl_cons, hv, Shown.apply_idle, ih]
    · rw [List.filter_cons_of_pos (by simpa using hv), List.map_cons, List.foldl_cons, List.map_cons,
        List.foldl_cons, ih]

/-- Settles O49: IDLE changes nothing shown, and what is observed depends on what is shown. -/
theorem idleStepsAreInvisible : Obligations.IdleStepsAreInvisible := by
  unfold Obligations.IdleStepsAreInvisible
  intro s vs
  refine RunRecord.observation_of_shown ?_
  rw [run_shown, run_shown, Shown.foldl_apply_filter_idle]

/-- One more vector does what its canonical vector does. -/
theorem RunRecord.advance_canonicalVector (r : RunRecord) (v : InputVector) :
    r.advance (canonicalVector v) = r.advance v := by
  simp only [RunRecord.advance, step_present, decodeVector_canonicalVector]

/-- Settles O50: a vector enters a record through the operation it selects. -/
theorem ignoredBitsHaveNoEffect : Obligations.IgnoredBitsHaveNoEffect := by
  unfold Obligations.IgnoredBitsHaveNoEffect
  intro s vs
  simp only [run, RunRecord.extend, List.foldl_map, RunRecord.advance_canonicalVector]

end Sys2Proof.Machine
end

section
/-!
PROOFS. The table by phase names (41_transition_lookup.md sections 1 and 2): statements about all phases, the
named cells and their classes, and the two paths.
-/

namespace Sys2Proof.Machine

/-- A statement holds of every phase if it holds of the seven. -/
theorem Phase.forall_iff {P : Phase → Prop} :
    (∀ p, P p) ↔ P .start ∧ P .negFinal ∧ P .negBegin ∧ P .negNext ∧ P .posBegin ∧ P .posFinal ∧
      P .posNext := by
  refine ⟨fun h => ⟨h _, h _, h _, h _, h _, h _, h _⟩, ?_⟩
  rintro ⟨hstart, hnegFinal, hnegBegin, hnegNext, hposBegin, hposFinal, hposNext⟩ p
  cases p <;> assumption

/-! ### Phases and bytes -/

theorem Phase.bits_le : ∀ p : Phase, p.bits ≤ 6 := Phase.forall_iff.mpr (by decide)

/-- Each phase is named by its own value. -/
theorem Phase.ofBits_bits : ∀ p : Phase, Phase.ofBits p.bits = some p := Phase.forall_iff.mpr (by decide)

theorem Phase.bits_injective {p q : Phase} (h : p.bits = q.bits) : p = q :=
  Option.some.inj ((Phase.ofBits_bits p).symm.trans ((congrArg Phase.ofBits h).trans (Phase.ofBits_bits q)))

/-- The values 0 to 6 are those of the phases. -/
theorem Phase.exists_bits_eq : ∀ w : BitVec 4, w ≤ 6 → ∃ p : Phase, p.bits = w := by
  have hnamed : ∀ w : BitVec 4, w ≤ 6 → (Phase.ofBits w).map Phase.bits = some w := by decide
  intro w hw
  obtain ⟨p, -, hp⟩ := Option.map_eq_some_iff.mp (hnamed w hw)
  exact ⟨p, hp⟩

/-- The phase of a pair's byte is the pair's. -/
@[simp] theorem phaseOf_toByte (p : PairState) : phaseOf p.toByte = p.phase.bits := by
  rcases p with ⟨q, d⟩
  cases q <;> cases d <;> rfl

/-! ### Cells -/

/-- The pair a cell leads to. -/
def NamedCell.pair (x : NamedCell) : PairState := ⟨x.next, x.event⟩

/-- The entry of a named phase is the byte of the pair its cell leads to. -/
theorem entryOf_bits : ∀ (p : Phase) (c : Code), entryOf p.bits c = (namedCell p c).pair.toByte :=
  Phase.forall_iff.mpr (by decide)

/-- The event of an entry is the cell's. -/
theorem directionOf_entryOf_bits : ∀ (p : Phase) (c : Code),
    directionOf (directionBits (entryOf p.bits c)) = (namedCell p c).event :=
  Phase.forall_iff.mpr (by decide)

/-- Off START, the phase reached tells the code that led to it. -/
theorem enteringCode_namedCell : ∀ (p : Phase) (c : Code), (namedCell p c).next ≠ .start →
    enteringCode (namedCell p c).next = some c :=
  Phase.forall_iff.mpr (by decide)

/-- Along a path, off START, each cell stays on the path. -/
theorem path_namedCell : ∀ (p : Phase) (c : Code), p ≠ .start → (namedCell p c).next ≠ .start →
    (namedCell p c).next.path = p.path := by
  intro p; cases p <;> decide

/-- A tick is that of the path it ends. -/
theorem path_of_event_ne_none : ∀ (p : Phase) (c : Code), (namedCell p c).event ≠ .none →
    p.path = some (namedCell p c).event :=
  Phase.forall_iff.mpr (by decide)

/-- The cells of the mirrored phase and code. -/
theorem namedCell_mirror : ∀ (p : Phase) (c : Code),
    (namedCell p.mirror (mirrorCode c)).next = (namedCell p c).next.mirror ∧
    (namedCell p.mirror (mirrorCode c)).event = mirrorEvent (namedCell p c).event ∧
    (namedCell p.mirror (mirrorCode c)).cls = (namedCell p c).cls :=
  Phase.forall_iff.mpr (by decide)

/-- Settles O21: over the 28 named cells. -/
theorem pathsMirrorAndNeverMix : Obligations.PathsMirrorAndNeverMix := by
  unfold Obligations.PathsMirrorAndNeverMix
  exact ⟨namedCell_mirror, path_namedCell, path_of_event_ne_none⟩

/-! ### Classes of cells -/

/-- Off START, the class of a cell by its code. -/
theorem cls_of_enteringCode : ∀ (p : Phase) (c e : Code), enteringCode p = some e →
    ((namedCell p c).cls = .stay ↔ c = e) ∧
    ((namedCell p c).cls = .stay ↔ (namedCell p c).next = p) ∧
    ((namedCell p c).cls = .abort ↔ opposite c e = true) ∧
    ((namedCell p c).cls = .complete ↔ (namedCell p c).event ≠ .none) ∧
    ((namedCell p c).cls = .abort → (namedCell p c).next = .start) := by
  intro p; cases p <;> decide

/-- The cells of a phase on a path, between the phase before it and the phase after it, each with the code that
leads to it; the third place is the last. -/
def CellsAlongPath (k : Nat) (before here after : Phase × Code) : Prop :=
  ∀ c : Code,
    ((namedCell here.1 c).cls = .advance ↔ k < 3 ∧ c = after.2) ∧
    ((namedCell here.1 c).cls = .advance → (namedCell here.1 c).next = after.1) ∧
    ((namedCell here.1 c).cls = .retreat ↔ c = before.2) ∧
    ((namedCell here.1 c).cls = .retreat → (namedCell here.1 c).next = before.1) ∧
    ((namedCell here.1 c).cls = .complete ↔ k = 3 ∧ c = after.2) ∧
    ((namedCell here.1 c).cls = .complete → (namedCell here.1 c).next = .start)

/-- A path of section 2 between its two visits of START, each phase with the code that leads to it. -/
theorem cellsAlongPath_of_forall {a b c d e : Phase × Code} (h1 : CellsAlongPath 1 a b c)
    (h2 : CellsAlongPath 2 b c d) (h3 : CellsAlongPath 3 c d e) :
    ∀ k ∈ [1, 2, 3], ∀ before here after, [a, b, c, d, e][k - 1]? = some before →
      [a, b, c, d, e][k]? = some here → [a, b, c, d, e][k + 1]? = some after →
      CellsAlongPath k before here after := by
  intro k hk before here after hbefore hhere hafter
  fin_cases hk <;> (cases hbefore; cases hhere; cases hafter; assumption)

theorem cellsAlongPath_negative :
    CellsAlongPath 1 (.start, 3) (.negBegin, 1) (.negNext, 0) ∧
    CellsAlongPath 2 (.negBegin, 1) (.negNext, 0) (.negFinal, 2) ∧
    CellsAlongPath 3 (.negNext, 0) (.negFinal, 2) (.start, 3) := by
  unfold CellsAlongPath; decide

theorem cellsAlongPath_positive :
    CellsAlongPath 1 (.start, 3) (.posBegin, 2) (.posNext, 0) ∧
    CellsAlongPath 2 (.posBegin, 2) (.posNext, 0) (.posFinal, 1) ∧
    CellsAlongPath 3 (.posNext, 0) (.posFinal, 1) (.start, 3) := by
  unfold CellsAlongPath; decide

/-- The cells of START. -/
theorem namedCell_start : ∀ c : Code,
    ((namedCell .start c).cls = .stay ↔ c = 0 ∨ c = 3) ∧
    ((namedCell .start c).cls = .advance ↔ c = 1 ∨ c = 2) ∧
    ((namedCell .start c).cls = .stay → (namedCell .start c).next = .start) ∧
    ((namedCell .start c).event = .none) := by decide

/-- Settles O20: over the 28 named cells, phase by phase along each of the two paths. -/
theorem namedCellsAreTheTable : Obligations.NamedCellsAreTheTable := by
  unfold Obligations.NamedCellsAreTheTable
  refine ⟨fun p c => ?_, cls_of_enteringCode, fun path hpath => ?_, namedCell_start, rfl, rfl,
    fun p q c hnext hq => ?_, Phase.ofBits_bits, by decide⟩
  · rw [tableRead_populated _ p.bits_le, entryOf_bits]
    rfl
  · obtain ⟨hneg1, hneg2, hneg3⟩ := cellsAlongPath_negative
    obtain ⟨hpos1, hpos2, hpos3⟩ := cellsAlongPath_positive
    rw [List.mem_pair] at hpath
    rcases hpath with rfl | rfl
    · exact cellsAlongPath_of_forall hneg1 hneg2 hneg3
    · exact cellsAlongPath_of_forall hpos1 hpos2 hpos3
  · subst hnext
    exact enteringCode_namedCell p c hq

end Sys2Proof.Machine
end

section
/-!
PROOFS. The (phase, direction) pair machine (10_state.md R17; 41_transition_lookup.md R87): over every run from a
phase 0 to 6 the block is in step with it, and over a list of codes it follows the named cells.
-/

namespace Sys2Proof.Machine

/-! ### The block in step with the pair machine -/

theorem toByte_start : PairState.toByte ⟨.start, .none⟩ = 0x00 := by decide

/-- What is shown with these events is in step with the pair: no fault, the same phase, and, on the premise
`same`, the pair's byte. (From a phase with stray bits around it, `same` is false.) -/
structure Shown.InStep (x : Shown) (p : PairState) (es : List DirectionEvent) (same : Prop) : Prop where
  fault : x.fault = none
  events : x.events = es
  phase : x.st.phase? = some p.phase.bits
  byte : same → x.st = .holds p.toByte

/-- One operation keeps what is shown in step with the pair machine. -/
theorem Shown.InStep.apply {x : Shown} {p : PairState} {es : List DirectionEvent} {same : Prop}
    (h : x.InStep p es same) (i : Instr) :
    (x.apply i).InStep (p.apply i).1 (es ++ (p.apply i).2.toList) same := by
  rcases x with ⟨st, events, fault⟩
  obtain ⟨rfl, rfl, hphase, hbyte⟩ := h
  cases i with
  | reset =>
    rw [Shown.apply_reset]
    exact ⟨rfl, (List.append_nil _).symm, rfl, fun _ => congrArg EncoderState.holds toByte_start.symm⟩
  | idle =>
    rw [Shown.apply_idle]
    exact ⟨rfl, (List.append_nil _).symm, hphase, hbyte⟩
  | eval a b =>
    cases st with
    | undefined => cases hphase
    | holds v =>
      have hv : phaseOf v = p.phase.bits := Option.some.inj hphase
      rw [Shown.apply_eval_holds (hv ▸ p.phase.bits_le), hv, directionOf_entryOf_bits, entryOf_bits]
      exact ⟨rfl, rfl, congrArg some (phaseOf_toByte _), fun _ => rfl⟩

/-- Over any operations what is shown stays in step with the pair machine. -/
theorem Shown.InStep.foldl_apply {x : Shown} {p : PairState} {es : List DirectionEvent} {same : Prop}
    (h : x.InStep p es same) (vs : List InputVector) :
    ((vs.map decodeVector).foldl Shown.apply x).InStep (p.run vs).1 (es ++ (p.run vs).2) same := by
  induction vs generalizing x p es with
  | nil => simpa [PairState.run] using h
  | cons v vs ih => simpa [PairState.run] using ih (h.apply (decodeVector v))

/-- A run from a pair's phase shows what the pair machine gives. -/
theorem run_inStep {s : State} {p : PairState} {same : Prop} (hphase : s.st.phase? = some p.phase.bits)
    (hbyte : same → s.st = .holds p.toByte) (vs : List InputVector) :
    (run s vs).shown.InStep (p.run vs).1 (p.run vs).2 same := by
  rw [run_shown]
  exact Shown.InStep.foldl_apply (es := []) ⟨rfl, rfl, hphase, hbyte⟩ vs

/-- Settles O53: the block starts in step with the pair, byte included, and every operation keeps it so. -/
theorem pairMachineRefinesTheBlock : Obligations.PairMachineRefinesTheBlock := by
  unfold Obligations.PairMachineRefinesTheBlock
  intro s p vs hst
  have hphase : s.st.phase? = some p.phase.bits := by
    rw [hst]; exact congrArg some (phaseOf_toByte p)
  have h := run_inStep (same := True) hphase (fun _ => hst) vs
  exact ⟨h.fault, h.events, h.byte trivial⟩

/-! ### Lists of codes -/

/-- The phase that EVALs of these codes lead to, by the named cells. -/
def Phase.follow (p : Phase) (cs : List Code) : Phase := cs.foldl (fun q c => (namedCell q c).next) p

/-- The events of EVALs of these codes, by the named cells. -/
def Phase.eventsAlong : Phase → List Code → List DirectionEvent
  | _, [] => []
  | p, c :: cs => (namedCell p c).event :: (namedCell p c).next.eventsAlong cs

@[simp] theorem Phase.follow_nil (p : Phase) : p.follow [] = p := rfl
@[simp] theorem Phase.follow_cons (p : Phase) (c : Code) (cs : List Code) :
    p.follow (c :: cs) = (namedCell p c).next.follow cs := rfl
theorem Phase.follow_append (p : Phase) (cs ds : List Code) :
    p.follow (cs ++ ds) = (p.follow cs).follow ds := List.foldl_append

@[simp] theorem Phase.eventsAlong_nil (p : Phase) : p.eventsAlong [] = [] := rfl
@[simp] theorem Phase.eventsAlong_cons (p : Phase) (c : Code) (cs : List Code) :
    p.eventsAlong (c :: cs) = (namedCell p c).event :: (namedCell p c).next.eventsAlong cs := rfl
theorem Phase.eventsAlong_append (p : Phase) (cs ds : List Code) :
    p.eventsAlong (cs ++ ds) = p.eventsAlong cs ++ (p.follow cs).eventsAlong ds := by
  induction cs generalizing p with
  | nil => rfl
  | cons c cs ih => simp [ih]

/-- The vector of `EVAL #c` evaluates the code `c`. -/
theorem codeEvaluated_evalVector (c : Code) : codeEvaluated (evalVector c) = some c := by
  rw [codeEvaluated, evalVector, decodeVector_encode]
  exact congrArg some (codeOf_levels c)

/-- The pair machine on one EVAL of a code. -/
theorem PairState.apply_evalVector (p : PairState) (c : Code) :
    p.apply (decodeVector (evalVector c)) =
      ((namedCell p.phase c).pair, some (namedCell p.phase c).event) := by
  rw [evalVector, decodeVector_encode, evalOfCode, PairState.apply, codeOf_levels]
  rfl

/-- The pair machine on EVALs of codes follows the named cells. -/
theorem PairState.run_evalVectors (p : PairState) (cs : List Code) :
    (p.run (cs.map evalVector)).1.phase = p.phase.follow cs ∧
    (p.run (cs.map evalVector)).2 = p.phase.eventsAlong cs := by
  induction cs generalizing p with
  | nil => exact ⟨rfl, rfl⟩
  | cons c cs ih =>
    obtain ⟨hphase, hevents⟩ := ih (namedCell p.phase c).pair
    simp only [List.map_cons, PairState.run, PairState.apply_evalVector]
    exact ⟨hphase, congrArg ((namedCell p.phase c).event :: ·) hevents⟩

/-- So does the block, from any state of the phase. -/
theorem run_evalVectors {s : State} {p : Phase} (h : s.st.phase? = some p.bits) (cs : List Code) :
    (run s (cs.map evalVector)).events = p.eventsAlong cs ∧
    (run s (cs.map evalVector)).state.st.phase? = some (p.follow cs).bits := by
  have hstep := run_inStep (p := ⟨p, .none⟩) (same := False) h False.elim (cs.map evalVector)
  obtain ⟨hphase, hevents⟩ := PairState.run_evalVectors ⟨p, .none⟩ cs
  exact ⟨hstep.events.trans hevents, hstep.phase.trans (by rw [hphase])⟩

/-- A defined `st` with a phase 0 to 6 has a named phase. -/
theorem exists_phase_of_holds {s : State} {v : Byte} (hst : s.st = .holds v) (hphase : phaseOf v ≤ 6) :
    ∃ p : Phase, p.bits = phaseOf v ∧ s.st.phase? = some p.bits := by
  obtain ⟨p, hp⟩ := Phase.exists_bits_eq _ hphase
  exact ⟨p, hp, by rw [hst, hp]; rfl⟩

/-! ### Reaching a phase -/

/-- The codes that lead along its path from START to a phase. -/
def Phase.pathCodes : Phase → List Code
  | .start => []
  | .negBegin => [1]
  | .negNext => [1, 0]
  | .negFinal => [1, 0, 2]
  | .posBegin => [2]
  | .posNext => [2, 0]
  | .posFinal => [2, 0, 1]

theorem follow_pathCodes : ∀ p : Phase, Phase.start.follow p.pathCodes = p := Phase.forall_iff.mpr (by decide)

theorem follow_three : ∀ p : Phase, p.follow [3] = .start := Phase.forall_iff.mpr (by decide)

/-- Settles O54: along its path to a phase, and by code 3 back to START. -/
theorem everyPhaseIsReachable : Obligations.EveryPhaseIsReachable := by
  unfold Obligations.EveryPhaseIsReachable
  refine ⟨fun s p hs => ⟨p.pathCodes, ?_⟩, fun s hready => ?_⟩
  · obtain ⟨-, hphase⟩ := run_evalVectors (p := .start) hs p.pathCodes
    rwa [follow_pathCodes] at hphase
  · obtain ⟨v, hst, hv⟩ := State.phaseOf_le_of_ready hready
    obtain ⟨p, -, hp⟩ := exists_phase_of_holds hst hv
    obtain ⟨-, hphase⟩ := run_evalVectors hp [3]
    rwa [follow_three] at hphase

end Sys2Proof.Machine
end

section
/-!
PROOFS. Debounce, hysteresis and counting (42_direction_extract.md sections 2 and 3): duplicate and opposite codes,
the full path before a tick, whole detents and cycles, one order of traversal, and contact bounce.
-/

namespace Sys2Proof.Machine

/-! ### Two EVALs -/

/-- What an EVAL with IDLEs after it, and then a second EVAL, show. -/
theorem run_eval_idles_eval_shown {s : State} {u : Byte} (hst : s.st = .holds u) (hu : phaseOf u ≤ 6)
    {v w : InputVector} {idles : List InputVector} {c d : Code} (hv : codeEvaluated v = some c)
    (hw : codeEvaluated w = some d) (hidles : ∀ x ∈ idles, decodeVector x = .idle) :
    ∃ es : List DirectionEvent,
      (run s (v :: idles)).shown = ⟨.holds (entryOf (phaseOf u) c), es, none⟩ ∧
      (run s (v :: idles ++ [w])).shown =
        ⟨.holds (entryOf (phaseOf (entryOf (phaseOf u) c)) d),
          es ++ [directionOf (directionBits (entryOf (phaseOf (entryOf (phaseOf u) c)) d))], none⟩ := by
  have hfirst := run_cons_idles_shown hidles s v
  rw [hst, decodeVector_eq_evalOfCode hv, evalOfCode, Shown.apply_eval_holds hu, codeOf_levels] at hfirst
  refine ⟨_, hfirst, ?_⟩
  rw [run_concat_shown, hfirst, decodeVector_eq_evalOfCode hw, evalOfCode,
    Shown.apply_eval_holds (phaseOf_entryOf_le _ _), codeOf_levels]

/-- The entries that two EVALs of one code read in turn. -/
theorem entryOf_duplicate : ∀ row : BitVec 4, row ≤ 6 → ∀ c : Code,
    if (row = 1 ∧ c = 1) ∨ (row = 4 ∧ c = 1) then
      entryOf row c = 0x00 ∧ entryOf (phaseOf (entryOf row c)) c = 0x02
    else if (row = 2 ∧ c = 2) ∨ (row = 5 ∧ c = 2) then
      entryOf row c = 0x00 ∧ entryOf (phaseOf (entryOf row c)) c = 0x04
    else phaseOf (entryOf (phaseOf (entryOf row c)) c) = phaseOf (entryOf row c) := by decide

/-- Settles O42: by the two entries read, over the 28 cells. -/
theorem duplicateEvalPhase : Obligations.DuplicateEvalPhase := by
  unfold Obligations.DuplicateEvalPhase
  intro s v c hst hphase
  have hcode := codeEvaluated_evalVector c
  obtain ⟨es, hone, htwo⟩ := run_eval_idles_eval_shown hst hphase hcode hcode (List.forall_mem_nil _)
  have hst1 : (run s [evalVector c]).state.st = .holds _ := congrArg Shown.st hone
  have hst2 : (run s [evalVector c, evalVector c]).state.st = .holds _ := congrArg Shown.st htwo
  simp only [hst1, hst2, EncoderState.holds.injEq, EncoderState.phase?, Option.some.injEq]
  exact entryOf_duplicate _ hphase c

/-- The entries that two EVALs of opposite codes read in turn. -/
theorem entryOf_opposite : ∀ (row : BitVec 4) (c d : Code), opposite c d = true →
    directionOf (directionBits (entryOf (phaseOf (entryOf row c)) d)) = .none ∧
    (phaseOf (entryOf row c) ≠ 0 → entryOf (phaseOf (entryOf row c)) d = 0x00) ∧
    (phaseOf (entryOf row c) = 0 → c = 0 ∨ c = 3 → entryOf (phaseOf (entryOf row c)) d = 0x00) ∧
    (phaseOf (entryOf row c) = 0 → c = 1 → entryOf (phaseOf (entryOf row c)) d = 0x04) ∧
    (phaseOf (entryOf row c) = 0 → c = 2 → entryOf (phaseOf (entryOf row c)) d = 0x02) := by decide

/-- Settles O43: a safe first EVAL found a row, and the second reads the entry that the first one's leads to. -/
theorem oppositeCodeEmitsNone : Obligations.OppositeCodeEmitsNone := by
  unfold Obligations.OppositeCodeEmitsNone
  intro s v w idles c d hv hw hopposite hidles hsafe
  have hfirst : (run s (v :: idles)).shown = Shown.apply ⟨s.st, [], none⟩ (evalOfCode c) := by
    rw [run_cons_idles_shown hidles, decodeVector_eq_evalOfCode hv]
  obtain ⟨u, hst, hu⟩ := Shown.phaseOf_le_of_apply_eval ((congrArg Shown.fault hfirst).symm.trans hsafe)
  obtain ⟨es, hone, htwo⟩ := run_eval_idles_eval_shown hst hu hv hw hidles
  have hst1 : (run s (v :: idles)).state.st = .holds _ := congrArg Shown.st hone
  have hst2 : (run s (v :: idles ++ [w])).state.st = .holds _ := congrArg Shown.st htwo
  have hev1 : (run s (v :: idles)).events = _ := congrArg Shown.events hone
  have hev2 : (run s (v :: idles ++ [w])).events = _ := congrArg Shown.events htwo
  obtain ⟨hnone, hentries⟩ := entryOf_opposite (phaseOf u) c d hopposite
  simp only [hst1, hst2, hev1, hev2, EncoderState.holds.injEq, EncoderState.phase?, Option.some.injEq, ne_eq]
  exact ⟨by rw [hnone], hentries⟩

/-! ### The full path before a tick -/

/-- The phase the pair machine comes to from START. -/
def phaseAfter (vs : List InputVector) : Phase := ((⟨.start, .none⟩ : PairState).run vs).1.phase

theorem PairState.run_concat (p : PairState) (vs : List InputVector) (v : InputVector) :
    p.run (vs ++ [v]) =
      (((p.run vs).1.apply (decodeVector v)).1,
        (p.run vs).2 ++ ((p.run vs).1.apply (decodeVector v)).2.toList) := by
  induction vs generalizing p with
  | nil => simp [PairState.run]
  | cons x xs ih => simp [PairState.run, ih]

theorem evalCodes_concat (vs : List InputVector) (v : InputVector) :
    evalCodes (vs ++ [v]) = evalCodes vs ++ (codeEvaluated v).toList := by
  unfold evalCodes
  cases h : codeEvaluated v <;> simp [h]

/-- A vector that does not lead to START left the phase as it was, with no code, or evaluated a code. -/
theorem phaseAfter_concat_cases {vs : List InputVector} {v : InputVector}
    (h : phaseAfter (vs ++ [v]) ≠ .start) :
    (codeEvaluated v = none ∧ phaseAfter (vs ++ [v]) = phaseAfter vs) ∨
    ∃ c, codeEvaluated v = some c ∧ phaseAfter (vs ++ [v]) = (namedCell (phaseAfter vs) c).next := by
  simp only [phaseAfter, PairState.run_concat, codeEvaluated] at h ⊢
  cases hv : decodeVector v with
  | reset => simp [hv, PairState.apply] at h
  | idle => exact .inl ⟨rfl, rfl⟩
  | eval a b => exact .inr ⟨_, rfl, rfl⟩

/-- The path to the next phase is seen once the path to this one was, with the code of the cell after it. -/
theorem pathCodes_sublist : ∀ (p : Phase) (c : Code),
    (namedCell p c).next.pathCodes.Sublist (p.pathCodes ++ [c]) := Phase.forall_iff.mpr (by decide)

/-- The path to a phase off START begins as the path to the phase before, or with the code that left START. -/
theorem pathCodes_head? : ∀ (p : Phase) (c : Code), (namedCell p c).next ≠ .start →
    (namedCell p c).next.pathCodes.head? = (p.pathCodes ++ [c]).head? := Phase.forall_iff.mpr (by decide)

/-- Hysteresis: while the phase stays off START, the codes begin as the path to the present phase does and have
that path in them, and every phase is of the path of the present one. -/
theorem codes_while_off_start {vs : List InputVector}
    (hoff : ∀ n, 0 < n → n ≤ vs.length → phaseAfter (vs.take n) ≠ .start) :
    (evalCodes vs).head? = (phaseAfter vs).pathCodes.head? ∧
    (phaseAfter vs).pathCodes.Sublist (evalCodes vs) ∧
    ∀ n, 0 < n → n ≤ vs.length → (phaseAfter (vs.take n)).path = (phaseAfter vs).path := by
  induction vs using List.reverseRecOn with
  | nil => exact ⟨rfl, List.Sublist.slnil, fun n hpos hle => absurd hle (Nat.not_le.mpr hpos)⟩
  | append_singleton vs v ih =>
    have htake {n : Nat} (hle : n ≤ vs.length) : (vs ++ [v]).take n = vs.take n :=
      List.take_append_of_le_length hle
    have hbefore : ∀ n, 0 < n → n ≤ vs.length → phaseAfter (vs.take n) ≠ .start := fun n hpos hle =>
      htake hle ▸ hoff n hpos (by simp; omega)
    have hall : (vs ++ [v]).take (vs.length + 1) = vs ++ [v] := List.take_of_length_le (by simp)
    have hnow : phaseAfter (vs ++ [v]) ≠ .start := hall ▸ hoff _ (Nat.succ_pos _) (by simp)
    obtain ⟨hhead, hsublist, hpath⟩ := ih hbefore
    have hlast (hpos : 0 < vs.length) : phaseAfter vs ≠ .start := by simpa using hbefore _ hpos le_rfl
    -- every phase since START is of the path of the present one, by the last cell entered
    have hpaths (hkeep : 0 < vs.length → (phaseAfter (vs ++ [v])).path = (phaseAfter vs).path) :
        ∀ n, 0 < n → n ≤ (vs ++ [v]).length →
          (phaseAfter ((vs ++ [v]).take n)).path = (phaseAfter (vs ++ [v])).path := by
      intro n hpos hle
      rcases Nat.lt_or_ge vs.length n with hlt | hge
      · rw [List.take_of_length_le (by simp; omega)]
      · rw [htake hge, hpath n hpos hge, hkeep (hpos.trans_le hge)]
    rw [evalCodes_concat]
    obtain ⟨hcode, hphase⟩ | ⟨c, hcode, hphase⟩ := phaseAfter_concat_cases hnow
    · rw [hcode, hphase, Option.toList_none, List.append_nil]
      exact ⟨hhead, hsublist, hphase ▸ hpaths fun _ => by rw [hphase]⟩
    · rw [hcode, Option.toList_some]
      rw [hphase] at hnow
      refine ⟨?_, ?_, hpaths fun hpos => ?_⟩
      · rw [hphase, pathCodes_head? _ _ hnow, List.head?_append, List.head?_append, hhead]
      · rw [hphase]
        exact (pathCodes_sublist _ c).trans (hsublist.append_right [c])
      · rw [hphase]
        exact path_namedCell _ _ (hlast hpos) hnow

/-- The final phase of each path, and code 3, is where a tick is emitted. -/
theorem tick_iff_final : ∀ (p : Phase) (c : Code),
    ((namedCell p c).event = .negative ↔ p = .negFinal ∧ c = 3) ∧
    ((namedCell p c).event = .positive ↔ p = .posFinal ∧ c = 3) := Phase.forall_iff.mpr (by decide)

/-- A vector that adds one event to the pair machine's evaluated a code of that event. -/
theorem cell_of_run_concat_event {vs : List InputVector} {v : InputVector} {e : DirectionEvent}
    (h : ((⟨.start, .none⟩ : PairState).run (vs ++ [v])).2 =
      ((⟨.start, .none⟩ : PairState).run vs).2 ++ [e]) :
    ∃ c, codeEvaluated v = some c ∧ (namedCell (phaseAfter vs) c).event = e := by
  rw [PairState.run_concat] at h
  have hlast := List.append_cancel_left h
  unfold codeEvaluated phaseAfter
  cases hv : decodeVector v with
  | reset => simp [hv, PairState.apply] at hlast
  | idle => simp [hv, PairState.apply] at hlast
  | eval a b => exact ⟨_, rfl, by simpa [hv, PairState.apply] using hlast⟩

/-- The values of the phases of each path. -/
theorem bits_of_path : ∀ p : Phase,
    (p.path = some .negative → some p.bits ∈ [some 1#4, some 2, some 3]) ∧
    (p.path = some .positive → some p.bits ∈ [some 4#4, some 5, some 6]) := by
  intro p; cases p <;> decide

/-- Settles O44: the block is in step with the pair machine, whose codes, while it is off START, have the path to
the present phase in them; and a tick is emitted in the final phase of a path only. -/
theorem tickNeedsAFullPath : Obligations.TickNeedsAFullPath := by
  unfold Obligations.TickNeedsAFullPath
  intro s vs v hs hoff
  have hstep := run_inStep (s := s) (p := ⟨.start, .none⟩) (same := False) hs False.elim
  have hphase (ws : List InputVector) : (run s ws).state.st.phase? = some (phaseAfter ws).bits :=
    (hstep ws).phase
  have hevents (ws : List InputVector) : (run s ws).events = _ := (hstep ws).events
  have hnamed : ∀ n, 0 < n → n ≤ vs.length → phaseAfter (vs.take n) ≠ .start := fun n hpos hle hstart =>
    hoff n hpos hle (by rw [hphase, hstart]; rfl)
  obtain ⟨hhead, hsublist, hpath⟩ := codes_while_off_start hnamed
  simp only [hevents, hphase]
  constructor
  · intro htick
    obtain ⟨c, hcode, hevent⟩ := cell_of_run_concat_event htick
    obtain ⟨hfinal, rfl⟩ := (tick_iff_final _ c).1.mp hevent
    rw [hfinal] at hhead hsublist hpath ⊢
    exact ⟨hcode, rfl, hhead, hsublist, fun n hpos hle => (bits_of_path _).1 (hpath n hpos hle)⟩
  · intro htick
    obtain ⟨c, hcode, hevent⟩ := cell_of_run_concat_event htick
    obtain ⟨hfinal, rfl⟩ := (tick_iff_final _ c).2.mp hevent
    rw [hfinal] at hhead hsublist hpath ⊢
    exact ⟨hcode, rfl, hhead, hsublist, fun n hpos hle => (bits_of_path _).2 (hpath n hpos hle)⟩

/-! ### Detents and cycles -/

/-- A list of codes that leads from a phase to itself, repeated: its events, repeated. -/
theorem Phase.eventsAlong_cycles {p : Phase} {cycle : List Code} (h : p.follow cycle = p) (k : Nat) :
    p.eventsAlong (List.replicate k cycle).flatten = (List.replicate k (p.eventsAlong cycle)).flatten ∧
    p.follow (List.replicate k cycle).flatten = p := by
  induction k with
  | zero => exact ⟨rfl, rfl⟩
  | succ k ih =>
    obtain ⟨hevents, hphase⟩ := ih
    simp only [List.replicate_succ, List.flatten_cons, Phase.eventsAlong_append, Phase.follow_append, h,
      hevents, hphase]
    exact ⟨trivial, trivial⟩

theorem ticksOf_append (es fs : List DirectionEvent) : ticksOf (es ++ fs) = ticksOf es ++ ticksOf fs :=
  List.filter_append ..

/-- Events with one tick, repeated, have that tick repeated. -/
theorem ticksOf_cycles {es : List DirectionEvent} {e : DirectionEvent} (h : ticksOf es = [e]) (k : Nat) :
    ticksOf (List.replicate k es).flatten = List.replicate k e := by
  induction k with
  | zero => rfl
  | succ k ih =>
    rw [List.replicate_succ, List.flatten_cons, ticksOf_append, ih, h]
    rfl

/-- Cycles from START: the first leads with no tick to a phase that each further cycle leads back to, with one
tick. -/
theorem ticksOf_eventsAlong_cycles {p : Phase} {cycle : List Code} {e : DirectionEvent}
    (hfirst : Phase.start.follow cycle = p) (hquiet : ticksOf (Phase.start.eventsAlong cycle) = [])
    (hcycle : p.follow cycle = p) (htick : ticksOf (p.eventsAlong cycle) = [e]) (k : Nat) :
    ticksOf (Phase.start.eventsAlong (List.replicate k cycle).flatten) = List.replicate (k - 1) e := by
  cases k with
  | zero => rfl
  | succ k =>
    obtain ⟨hevents, -⟩ := Phase.eventsAlong_cycles hcycle k
    rw [List.replicate_succ, List.flatten_cons, Phase.eventsAlong_append, ticksOf_append, hquiet, hfirst,
      hevents, ticksOf_cycles htick]
    rfl

/-- Settles O45: a detent leads from START to START; a cycle from code 0, after the first, leads from POS_NEXT or
NEG_NEXT to itself. -/
theorem detentsAreCountedOnce : Obligations.DetentsAreCountedOnce := by
  unfold Obligations.DetentsAreCountedOnce
  intro s k hs
  have hevents (cs : List Code) : (run s (cs.map evalVector)).events = Phase.start.eventsAlong cs :=
    (run_evalVectors hs cs).1
  have hphase (cs : List Code) :
      (run s (cs.map evalVector)).state.st.phase? = some (Phase.start.follow cs).bits :=
    (run_evalVectors hs cs).2
  obtain ⟨hnegEvents, hnegPhase⟩ :=
    Phase.eventsAlong_cycles (by decide : Phase.start.follow [1, 0, 2, 3] = .start) k
  obtain ⟨hposEvents, hposPhase⟩ :=
    Phase.eventsAlong_cycles (by decide : Phase.start.follow [2, 0, 1, 3] = .start) k
  simp only [hevents, hphase]
  refine ⟨hnegEvents, hposEvents, by rw [hnegPhase]; rfl, by rw [hposPhase]; rfl, ?_, ?_⟩
  · exact ticksOf_eventsAlong_cycles (p := .posNext) (by decide) (by decide) (by decide) (by decide) k
  · exact ticksOf_eventsAlong_cycles (p := .negNext) (by decide) (by decide) (by decide) (by decide) k

/-! ### One order of traversal -/

/-- An order of codes emits no `e` where START does not, and no phase does on the code that comes after the one
that entered it. -/
theorem not_mem_eventsAlong_traversal {next : Code → Code} {e : DirectionEvent}
    (hstart : ∀ c, (namedCell .start c).event ≠ e)
    (horder : ∀ p c, enteringCode p = some c → (namedCell p (next c)).event ≠ e)
    (n : Nat) (p : Phase) (c : Code) (hp : p = .start ∨ ∃ d, enteringCode p = some d ∧ c = next d) :
    e ∉ p.eventsAlong (traversal next c n) := by
  induction n generalizing p c with
  | zero => simp [traversal]
  | succ n ih =>
    have hhere : (namedCell p c).event ≠ e := by
      obtain rfl | ⟨d, hd, rfl⟩ := hp
      · exact hstart c
      · exact horder p d hd
    rw [traversal, Phase.eventsAlong_cons, List.mem_cons, not_or]
    refine ⟨hhere.symm, ih _ _ ?_⟩
    by_cases hnext : (namedCell p c).next = .start
    · exact .inl hnext
    · exact .inr ⟨c, enteringCode_namedCell p c hnext, rfl⟩

/-- In the order 0, 1, 3, 2 no phase is given code 3 after code 2, and in the reverse order none after code 1. -/
theorem event_after_enteringCode : ∀ (p : Phase) (c : Code), enteringCode p = some c →
    (namedCell p (forwardCode c)).event ≠ .negative ∧
    (namedCell p (backwardCode c)).event ≠ .positive := Phase.forall_iff.mpr (by decide)

/-- Settles O46: the code that entered a phase is the code before, so each order never completes the other's
path. -/
theorem traversalNeverReportsTheOther : Obligations.TraversalNeverReportsTheOther := by
  unfold Obligations.TraversalNeverReportsTheOther
  intro s c n hs
  rw [(run_evalVectors (p := .start) hs _).1, (run_evalVectors (p := .start) hs _).1]
  exact ⟨not_mem_eventsAlong_traversal (by decide) (fun p d hd => (event_after_enteringCode p d hd).1) n _ c
      (.inl rfl),
    not_mem_eventsAlong_traversal (by decide) (fun p d hd => (event_after_enteringCode p d hd).2) n _ c
      (.inl rfl)⟩

/-! ### Contact bounce -/

/-- After two codes of a bounce, the first again completes no path. -/
theorem event_after_bounce : ∀ (p : Phase) (x y : Code), adjacent x y = true →
    (namedCell (p.follow [x, y]) x).event = .none := Phase.forall_iff.mpr (by decide)

theorem adjacent_comm : ∀ x y : Code, adjacent x y = adjacent y x := by decide

/-- From the third code on, a bounce emits no tick. -/
theorem ticksOf_alternating_after_two (n : Nat) (p : Phase) {x y : Code} (h : adjacent x y = true) :
    ticksOf ((p.follow [x, y]).eventsAlong (alternating x y n)) = [] := by
  induction n generalizing p x y with
  | zero => rfl
  | succ n ih =>
    have hrest := ih (p.follow [x]) (adjacent_comm x y ▸ h)
    rw [alternating, Phase.eventsAlong_cons, event_after_bounce p x y h]
    exact hrest

/-- The ticks of the first two codes of a bounce. -/
theorem ticksOf_bounce : ∀ (p : Phase) (x y : Code), adjacent x y = true →
    ticksOf (p.eventsAlong [x]) =
      (if p.bits = 1 ∧ x = 3 then [.negative] else if p.bits = 5 ∧ x = 3 then [.positive] else []) ∧
    ticksOf (p.eventsAlong [x, y]) =
      if p.bits = 1 ∧ x = 3 then [.negative]
      else if p.bits = 1 ∧ x = 2 ∧ y = 3 then [.negative]
      else if p.bits = 3 ∧ x = 2 ∧ y = 3 then [.negative]
      else if p.bits = 5 ∧ x = 3 then [.positive]
      else if p.bits = 5 ∧ x = 1 ∧ y = 3 then [.positive]
      else if p.bits = 6 ∧ x = 1 ∧ y = 3 then [.positive]
      else [] := by
  intro p; cases p <;> decide

/-- Settles O47: by the number of codes, none, one, or two and more, of which only the first two can give a
tick. -/
theorem bounceEmitsAtMostOneTick : Obligations.BounceEmitsAtMostOneTick := by
  unfold Obligations.BounceEmitsAtMostOneTick
  intro s v x y n hst hphase hadjacent
  obtain ⟨p, hp, hs⟩ := exists_phase_of_holds hst hphase
  rw [(run_evalVectors hs _).1, ← hp]
  obtain ⟨hone, htwo⟩ := ticksOf_bounce p x y hadjacent
  match n with
  | 0 => simp [alternating, ticksOf]
  | 1 => simpa [alternating] using hone
  | n + 2 =>
    have hsplit : alternating x y (n + 2) = [x, y] ++ alternating x y n := rfl
    rw [hsplit, Phase.eventsAlong_append, ticksOf_append, ticksOf_alternating_after_two n p hadjacent,
      List.append_nil, htwo]
    simp

end Sys2Proof.Machine
end
